-- ==== Sys2Proof/Word.lean ====
section
/-! DEFINITION. The word types of SYNHASH-CORE (spec/00_scope.md R9, R10: every value is an unsigned integer of a fixed width). -/

namespace Sys2Proof

/-- `W = 64`: every state word, accumulator, mixer input and mixer output (R9, R20). -/
abbrev Word := BitVec 64

/-- One lane of a 64-bit data value (20_memory.md R53). -/
abbrev Byte := BitVec 8

/-- `CWBITS = 96`: one command word, presented whole (30_encoding.md R70). -/
abbrev CommandWord := BitVec 96

/-- `RWBITS = 72`: one response word, returned whole (30_encoding.md R74). -/
abbrev ResponseWord := BitVec 72

/-- A position `k` in 0..3 of `H`, `B`, `P` or `Q` (R12, R25). -/
abbrev Lane := Fin 4

end Sys2Proof
end

