-- ==== Sys2Proof/Config.lean ====
section
/-! DEFINITION. The parameters of spec/00_scope.md R9, each named once with the one value this hardware takes
(92_eei_decisions.md D23). The document's literals are unaudited (93_implementation_defined.md U1, log entry 8). -/

namespace Sys2Proof.Config

/-- `SEED0`: what `S0` becomes when the Mixer State is reset (R9). -/
def seed0 : Word := 0x5555555555555555#64

/-- `SEED1`: what `S1` becomes when the Mixer State is reset (R9). -/
def seed1 : Word := 0xaaaaaaaaaaaaaaaa#64

/-- `SH_IN`: left shift of the mixer input (R9, R102 step 1). -/
def shIn : Nat := 30

/-- `SH_A`: left shift in `b = s1 ^ (s1 << 23)` (R9, R102 step 4). -/
def shA : Nat := 23

/-- `SH_B`: right shift of `b` (R9, R102 step 5). -/
def shB : Nat := 18

/-- `SH_C`: right shift of the old `s0` (R9, R102 step 5). -/
def shC : Nat := 5

/-- `SUBLEN`: bytes of a sub-block, the most one Block Hasher call takes (R9). -/
def subLen : Nat := 8

/-- `NSUB`: sub-blocks of a block, and the number of accumulators (R9). -/
def nSub : Nat := 4

/-- `BLOCKSIZE = NSUB * SUBLEN` bytes (R9). -/
def blockSize : Nat := nSub * subLen

/-- Hexadecimal digits of one 64-bit word, `W / 4` (R158; 90_conflicts.md C1). -/
def hexPerWord : Nat := 16

/-- `HEXLEN = DIGESTBITS / 4` characters of a rendered digest (R9). -/
def hexLen : Nat := nSub * hexPerWord

/-- `ACCEPT_UPPER`: host side only, whether `parse` takes `A`..`F` (R9, R181). -/
def acceptUpper : Bool := true

end Sys2Proof.Config
end

