-- ==== Sys2Proof/Syntax.lean ====
section
/-! DEFINITION. The registers, the ten commands and the two hardware faults of SYNHASH-CORE
(10_state.md R20, 30_encoding.md R76, 60_exceptions.md R201). -/

namespace Sys2Proof

/-- The nineteen architectural registers (R20). -/
inductive Reg where
  | s0
  | s1
  | h (k : Lane)
  | b (k : Lane)
  | p (k : Lane)
  | q (k : Lane)
  | status
  deriving DecidableEq, Repr

/-- The ten commands, one constructor per row of spec/opcode_table.json. A byte count is a natural number; its
range, and the registers `WRR` may name, are in `Instr.wf`. -/
inductive Instr where
  /-- `RDR r` (44_register_access.md R190). -/
  | rdr (r : Reg)
  /-- `WRR r, d` (R191). -/
  | wrr (r : Reg) (d : Word)
  /-- `SEED` (40_bit_mixer.md R101). -/
  | seed
  /-- `MIX d` (R103). -/
  | mix (d : Word)
  /-- `HASHB n, d` (41_block_hasher.md R122). -/
  | hashb (n : Nat) (d : Word)
  /-- `DINIT` (42_digest_accumulator.md R141). -/
  | dinit
  /-- `LDB k, n, d` (R142). -/
  | ldb (k : Lane) (n : Nat) (d : Word)
  /-- `DBLK` (R146). -/
  | dblk
  /-- `XACC k, d` (R147). -/
  | xacc (k : Lane) (d : Word)
  /-- `HAMD` (43_hamming.md R171). -/
  | hamd
  deriving DecidableEq, Repr

/-- The two hardware faults (R201). Both are found at decode and the machine goes on (R203). -/
inductive CommandFault where
  /-- `ILLEGAL_OPCODE`: the opcode is none of the ten. -/
  | illegalOpcode
  /-- `ILLEGAL_OPERAND`: the opcode is assigned, and a field is not what its row allows. -/
  | illegalOperand
  deriving DecidableEq, Repr

end Sys2Proof
end

