-- ==== Sys2Proof/WellFormed.lean ====
section
/-! DEFINITION. Which command terms stand for legal command words (30_encoding.md R77, third column). -/

namespace Sys2Proof

/-- `WR_OK = RD_OK` without `STATUS` (20_memory.md R51). -/
def Reg.writable : Reg → Bool
  | .status => false
  | _ => true

/-- A byte count of `HASHB` or `LDB` is 0..8 (R76). -/
def countOk (n : Nat) : Bool := decide (n ≤ Config.subLen)

/-- The term is a legal command (R77): `WRR` names a writable register, and a count is at most 8. A lane is 0..3
by its type, and every register of `Reg` is readable. -/
def Instr.wf : Instr → Bool
  | .rdr _ => true
  | .wrr r _ => r.writable
  | .seed => true
  | .mix _ => true
  | .hashb n _ => countOk n
  | .dinit => true
  | .ldb _ n _ => countOk n
  | .dblk => true
  | .xacc _ _ => true
  | .hamd => true

end Sys2Proof
end

