-- ==== Sys2Proof/Decode.lean ====
section
/-! DEFINITION. The command word: its fields, the decoder (total on all 2^96 words), and the encoder
(30_encoding.md R70 to R79). -/

namespace Sys2Proof

/-! ### Fields of format `C` (R71) -/

def opField (cw : CommandWord) : BitVec 8 := cw.extractLsb' 88 8
def z1Field (cw : CommandWord) : BitVec 3 := cw.extractLsb' 85 3
def rField (cw : CommandWord) : BitVec 5 := cw.extractLsb' 80 5
def z2Field (cw : CommandWord) : BitVec 4 := cw.extractLsb' 76 4
def lenField (cw : CommandWord) : BitVec 4 := cw.extractLsb' 72 4
def z3Field (cw : CommandWord) : BitVec 8 := cw.extractLsb' 64 8
def dataField (cw : CommandWord) : Word := cw.extractLsb' 0 64

/-- The three must-be-zero fields are zero (R73). -/
def zerosOk (cw : CommandWord) : Bool := z1Field cw == 0#3 && z2Field cw == 0#4 && z3Field cw == 0#8

/-! ### The register index map (20_memory.md R51) -/

/-- The register an index names, `none` for a reserved index. The indices it answers are `RD_OK`. -/
def regOfIndex (r : BitVec 5) : Option Reg :=
  match r.toNat with
  | 0x00 => some .s0
  | 0x01 => some .s1
  | 0x04 => some (.h 0)
  | 0x05 => some (.h 1)
  | 0x06 => some (.h 2)
  | 0x07 => some (.h 3)
  | 0x08 => some (.b 0)
  | 0x09 => some (.b 1)
  | 0x0A => some (.b 2)
  | 0x0B => some (.b 3)
  | 0x10 => some (.p 0)
  | 0x11 => some (.p 1)
  | 0x12 => some (.p 2)
  | 0x13 => some (.p 3)
  | 0x14 => some (.q 0)
  | 0x15 => some (.q 1)
  | 0x16 => some (.q 2)
  | 0x17 => some (.q 3)
  | 0x18 => some .status
  | _ => none

/-- The index of a register: `H[k]` is `0x04 + k`, `B[k]` is `0x08 + k`, `P[k]` is `0x10 + k`, `Q[k]` is
`0x14 + k` (R51). -/
def regIndex : Reg → BitVec 5
  | .s0 => 0x00#5
  | .s1 => 0x01#5
  | .h k => BitVec.ofNat 5 (0x04 + k.val)
  | .b k => BitVec.ofNat 5 (0x08 + k.val)
  | .p k => BitVec.ofNat 5 (0x10 + k.val)
  | .q k => BitVec.ofNat 5 (0x14 + k.val)
  | .status => 0x18#5

/-- The lane an `r` field names in `LDB` and `XACC`; only 0..3 is legal (R72). -/
def laneOfField (r : BitVec 5) : Option Lane :=
  if h : r.toNat < 4 then some ⟨r.toNat, h⟩ else none

/-! ### The decoder (R78) -/

/-- The ten assigned opcodes (R76, R201). -/
def assignedOpcodes : List (BitVec 8) :=
  [0x01#8, 0x02#8, 0x10#8, 0x11#8, 0x20#8, 0x30#8, 0x31#8, 0x32#8, 0x33#8, 0x40#8]

/-- The `case op of` of R78: the operand conditions of each assigned opcode. -/
def decodeOperands (op : BitVec 8) (r : BitVec 5) (len : BitVec 4) (data : Word) : Option Instr :=
  match op.toNat with
  | 0x01 => if len = 0#4 ∧ data = 0#64 then (regOfIndex r).map .rdr else none
  | 0x02 => if len = 0#4 then ((regOfIndex r).filter Reg.writable).map (.wrr · data) else none
  | 0x10 => if r = 0#5 ∧ len = 0#4 ∧ data = 0#64 then some .seed else none
  | 0x11 => if r = 0#5 ∧ len = 0#4 then some (.mix data) else none
  | 0x20 => if r = 0#5 ∧ len.toNat ≤ Config.subLen then some (.hashb len.toNat data) else none
  | 0x30 => if r = 0#5 ∧ len = 0#4 ∧ data = 0#64 then some .dinit else none
  | 0x31 => if len.toNat ≤ Config.subLen then (laneOfField r).map (.ldb · len.toNat data) else none
  | 0x32 => if r = 0#5 ∧ len = 0#4 ∧ data = 0#64 then some .dblk else none
  | 0x33 => if len = 0#4 then (laneOfField r).map (.xacc · data) else none
  | 0x40 => if r = 0#5 ∧ len = 0#4 ∧ data = 0#64 then some .hamd else none
  | _ => none

/-- The decoder, total on all 2^96 words (R78): the opcode test comes first (R204), then the must-be-zero fields,
then the operands of the command. It refuses by the name of the fault. -/
def decode (cw : CommandWord) : Except CommandFault Instr :=
  if opField cw ∈ assignedOpcodes then
    if zerosOk cw then
      match decodeOperands (opField cw) (rField cw) (lenField cw) (dataField cw) with
      | some i => .ok i
      | none => .error .illegalOperand
    else .error .illegalOperand
  else .error .illegalOpcode

/-! ### The encoder (R71, R76) -/

/-- A command word from its fields, the must-be-zero fields zero (R71). -/
def packCommand (op : BitVec 8) (r : BitVec 5) (len : BitVec 4) (data : Word) : CommandWord :=
  op ++ 0#3 ++ r ++ 0#4 ++ len ++ 0#8 ++ data

/-- The `r` field of a lane (R72). -/
def laneField (k : Lane) : BitVec 5 := BitVec.ofNat 5 k.val

/-- The opcode of a command (R76). -/
def Instr.opcode : Instr → BitVec 8
  | .rdr _ => 0x01#8
  | .wrr _ _ => 0x02#8
  | .seed => 0x10#8
  | .mix _ => 0x11#8
  | .hashb _ _ => 0x20#8
  | .dinit => 0x30#8
  | .ldb _ _ _ => 0x31#8
  | .dblk => 0x32#8
  | .xacc _ _ => 0x33#8
  | .hamd => 0x40#8

/-- The word of a command (R76, R85): every field the command does not use is zero (R73). -/
def encode : Instr → CommandWord
  | .rdr r => packCommand 0x01#8 (regIndex r) 0#4 0#64
  | .wrr r d => packCommand 0x02#8 (regIndex r) 0#4 d
  | .seed => packCommand 0x10#8 0#5 0#4 0#64
  | .mix d => packCommand 0x11#8 0#5 0#4 d
  | .hashb n d => packCommand 0x20#8 0#5 (BitVec.ofNat 4 n) d
  | .dinit => packCommand 0x30#8 0#5 0#4 0#64
  | .ldb k n d => packCommand 0x31#8 (laneField k) (BitVec.ofNat 4 n) d
  | .dblk => packCommand 0x32#8 0#5 0#4 0#64
  | .xacc k d => packCommand 0x33#8 (laneField k) 0#4 d
  | .hamd => packCommand 0x40#8 0#5 0#4 0#64

/-! ### The match and mask table (R77) -/

/-- A row of R77. -/
structure EncodingRow where
  opcode : BitVec 8
  pattern : CommandWord
  mask : CommandWord
  deriving DecidableEq, Repr

/-- `match` and `mask` of R77, row by row. -/
def encodingTable : List EncodingRow :=
  [ ⟨0x01#8, 0x010000000000000000000000#96, 0xFFE0FFFFFFFFFFFFFFFFFFFF#96⟩,
    ⟨0x02#8, 0x020000000000000000000000#96, 0xFFE0FFFF0000000000000000#96⟩,
    ⟨0x10#8, 0x100000000000000000000000#96, 0xFFFFFFFFFFFFFFFFFFFFFFFF#96⟩,
    ⟨0x11#8, 0x110000000000000000000000#96, 0xFFFFFFFF0000000000000000#96⟩,
    ⟨0x20#8, 0x200000000000000000000000#96, 0xFFFFF0FF0000000000000000#96⟩,
    ⟨0x30#8, 0x300000000000000000000000#96, 0xFFFFFFFFFFFFFFFFFFFFFFFF#96⟩,
    ⟨0x31#8, 0x310000000000000000000000#96, 0xFFFCF0FF0000000000000000#96⟩,
    ⟨0x32#8, 0x320000000000000000000000#96, 0xFFFFFFFFFFFFFFFFFFFFFFFF#96⟩,
    ⟨0x33#8, 0x330000000000000000000000#96, 0xFFFCFFFF0000000000000000#96⟩,
    ⟨0x40#8, 0x400000000000000000000000#96, 0xFFFFFFFFFFFFFFFFFFFFFFFF#96⟩ ]

/-- The word has the fixed bits of the row. -/
def EncodingRow.fits (row : EncodingRow) (cw : CommandWord) : Bool := (cw &&& row.mask) == row.pattern

/-- The extra condition of R77's last column, by opcode: `RD_OK`, `WR_OK`, or a count of at most 8. -/
def extraCondition (op : BitVec 8) (cw : CommandWord) : Bool :=
  if op = 0x01#8 then (regOfIndex (rField cw)).isSome
  else if op = 0x02#8 then ((regOfIndex (rField cw)).filter Reg.writable).isSome
  else if op = 0x20#8 ∨ op = 0x31#8 then decide ((lenField cw).toNat ≤ Config.subLen)
  else true

/-! ### The host's reading of the opcode table -/

/-- The command word whose bit `j` is bit `j` of `w` for `j < nbits`, and 0 above: the table numbers the 96 bits of
a command word as R70 does, so nothing is reordered (log entry 19). -/
def tableWord (nbits w : Nat) : CommandWord := BitVec.ofNat 96 (w % 2 ^ nbits)

/-- What the decoder reads from a word given in the opcode table's numbering. -/
def decodeTableWord (nbits w : Nat) : Option Instr :=
  match decode (tableWord nbits w) with
  | .ok i => some i
  | .error _ => none

end Sys2Proof
end

