-- ==== Sys2Proof/Machine/State.lean ====
section
/-! DEFINITION. The state of one SYNHASH-CORE instance with its two ports: the nineteen registers (10_state.md R20),
the reset input (70_reset_and_hazards.md R230), what the host has presented and the core has not taken yet, and the
response words given so far (30_encoding.md R74). The hardware has no memory and no program counter (R28, R50). -/

namespace Sys2Proof.Machine

/-- The Mixer State: `S0` and `S1` (R21). -/
structure Mixer where
  s0 : Word
  s1 : Word
  deriving DecidableEq, Repr

/-- Four 64-bit registers, position `k` in `lk`: the shape of `H`, `B`, `P` and `Q` (R23, R24, R25). -/
structure Lanes where
  l0 : Word
  l1 : Word
  l2 : Word
  l3 : Word
  deriving DecidableEq, Repr

/-- What the host can do at the ports between commands (R234): present one whole command word, assert the reset
input, or release it. -/
inductive HostInput where
  | command (cw : CommandWord)
  | assertReset
  | releaseReset
  deriving DecidableEq, Repr

/-- The machine: registers, reset line, and the two abstract ports (92_eei_decisions.md D20). `pending` is what the
host will do next, oldest first (log entry 1); `responses` is every response word given, oldest first (log entry 2). -/
structure State where
  mixer : Mixer
  h : Lanes
  b : Lanes
  p : Lanes
  q : Lanes
  status : Word
  inReset : Bool
  pending : List HostInput
  responses : List ResponseWord
  deriving DecidableEq, Repr

/-- Why the machine stops with a fault: never. The two hardware faults of R201 are next states (R203: the core
accepts the next command as usual), and R200 says nothing else can be raised, so this type has no constructor
(log entry 5). Safe: no stop is invented. -/
inductive Fault where
  deriving DecidableEq, Repr

/-- Why a step has no meaning. -/
inductive Refusal where
  /-- Raised by an arm of `exec` for a command without a meaning; no arm raises it now. Safe: nothing can be proved
  of what follows. -/
  | notModelled (mnemonic : String)
  /-- Raised by `step` when a command word is presented while the reset input is asserted. The core accepts no
  command then (R230), and 93_implementation_defined.md U9 says a model gives no meaning to a word presented during
  reset (log entry 4). Safe: nothing can be proved of what follows. -/
  | wordDuringReset
  deriving DecidableEq, Repr

/-- The Mixer State at the seed constants (R22, R33). -/
def Mixer.seeded : Mixer := ⟨Config.seed0, Config.seed1⟩

/-- Four zero registers (R33). -/
def Lanes.zero : Lanes := ⟨0#64, 0#64, 0#64, 0#64⟩

/-- The machine right after reset (R33, R230): `S0`, `S1` at the seeds, every other register zero, the reset input
released, nothing presented and nothing answered. -/
def State.reset : State where
  mixer := Mixer.seeded
  h := Lanes.zero
  b := Lanes.zero
  p := Lanes.zero
  q := Lanes.zero
  status := 0#64
  inReset := false
  pending := []
  responses := []

end Sys2Proof.Machine
end

