-- ==== Sys2Proof/Machine/Flags.lean ====
section
/-! DEFINITION. The two sticky bits of `STATUS` (10_state.md R26). There is no other flag and no condition code
(R27): no command computes one. -/

namespace Sys2Proof.Machine

/-- The bit of `STATUS` a fault sets: `EOP` is bit 0, `EARG` is bit 1 (R26, R201). -/
def stickyBit : CommandFault → Word
  | .illegalOpcode => 0x1#64
  | .illegalOperand => 0x2#64

/-- `STATUS.EOP`. -/
def State.eop (s : State) : Bool := s.status.getLsbD 0

/-- `STATUS.EARG`. -/
def State.earg (s : State) : Bool := s.status.getLsbD 1

/-- Set the sticky bit of a fault; the other bits keep their values (R203). -/
def setSticky (f : CommandFault) (s : State) : State := { s with status := s.status ||| stickyBit f }

end Sys2Proof.Machine
end

