-- ==== Sys2Proof/Machine/Operands.lean ====
section
/-! DEFINITION. Operand forms: the byte lanes of a data value (00_scope.md R12, 20_memory.md R53), the four positions
of a register group, and the one read and the one write of a register by name (44_register_access.md R193). -/

namespace Sys2Proof.Machine

/-- `byte(d, i) = d[8*i+7 : 8*i]` (R12). -/
def byteOf (d : Word) (i : Nat) : Byte := d.extractLsb' (8 * i) 8

/-- `zext_64` of a byte: a message byte enters the mixer zero-extended (R11, R54). -/
def zextByte (x : Byte) : Word := x.setWidth 64

/-- `keep(d, n) = d mod 2^(8*n)`: lanes `n` to 7 forced to zero (R12). -/
def keep (d : Word) (n : Nat) : Word := BitVec.ofNat 64 (d.toNat % 2 ^ (8 * n))

/-- The register at position `k` of a group. -/
def Lanes.get (v : Lanes) (k : Lane) : Word :=
  match k with
  | 0 => v.l0
  | 1 => v.l1
  | 2 => v.l2
  | 3 => v.l3

/-- The group with position `k` written. -/
def Lanes.set (v : Lanes) (k : Lane) (x : Word) : Lanes :=
  match k with
  | 0 => { v with l0 := x }
  | 1 => { v with l1 := x }
  | 2 => { v with l2 := x }
  | 3 => { v with l3 := x }

/-- `REG[r]`, read whole and without side effect (R52). -/
def readReg (r : Reg) (s : State) : Word :=
  match r with
  | .s0 => s.mixer.s0
  | .s1 => s.mixer.s1
  | .h k => s.h.get k
  | .b k => s.b.get k
  | .p k => s.p.get k
  | .q k => s.q.get k
  | .status => s.status

/-- `REG[r] <- d`, written whole (R52). `STATUS` has no write by name (R26): `WRR` refuses it before it gets here,
and the write leaves it alone. -/
def writeReg (r : Reg) (d : Word) (s : State) : State :=
  match r with
  | .s0 => { s with mixer := { s.mixer with s0 := d } }
  | .s1 => { s with mixer := { s.mixer with s1 := d } }
  | .h k => { s with h := s.h.set k d }
  | .b k => { s with b := s.b.set k d }
  | .p k => { s with p := s.p.set k d }
  | .q k => { s with q := s.q.set k d }
  | .status => s

end Sys2Proof.Machine
end

