-- ==== Sys2Proof/Machine/Ops.lean ====
section
/-! DEFINITION. The operations the commands share: the response word, taking a fault, the mixer step, the Block
Hasher, the block computation, the bit count, reset, and taking the host's next input. -/

namespace Sys2Proof.Machine

/-! ### Responding (30_encoding.md R74) -/

/-- Response code `OK` (R74). -/
def codeOk : Byte := 0x00#8

/-- The response code of a fault (R201). -/
def faultCode : CommandFault → Byte
  | .illegalOpcode => 0x01#8
  | .illegalOperand => 0x02#8

/-- `RW[71:0]`: code in 71:64, value in 63:0 (R74). -/
def packResponse (code : Byte) (value : Word) : ResponseWord := code ++ value

/-- The code field of a response word (R74). -/
def responseCode (rw : ResponseWord) : Byte := rw.extractLsb' 64 8

/-- The value field of a response word (R74). -/
def responseValue (rw : ResponseWord) : Word := rw.extractLsb' 0 64

/-- Give a response word: responses are produced in command order (R74, R56 (c)). -/
def emit (code : Byte) (value : Word) (s : State) : State :=
  { s with responses := s.responses ++ [packResponse code value] }

/-- `respond(v)` of a command that does not fault (R12). -/
def respond (v : Word) (s : State) : State := emit codeOk v s

/-! ### Taking a fault (60_exceptions.md R203)

There is no handler, no vector and no saved state, and so no return from a fault (R205). -/

/-- `raise Fault(code)`: set the sticky bit, respond with the code and value 0, change nothing else. -/
def raiseFault (f : CommandFault) (s : State) : State := emit (faultCode f) 0#64 (setSticky f s)

/-! ### The Bit Mixer (40_bit_mixer.md R102) -/

/-- `mix(x)`: the output and the next Mixer State. Every operand is a value from before the step, the `s0` of step 5
among them (90_conflicts.md C4, log entry 9); the right shifts are logical (R11). -/
def mix (x : Word) (m : Mixer) : Word × Mixer :=
  let c := x <<< Config.shIn
  let output := m.s1 + m.s0
  let b := m.s1 ^^^ (m.s1 <<< Config.shA)
  (output, { s0 := m.s0 ^^^ c, s1 := b ^^^ m.s0 ^^^ (b >>> Config.shB) ^^^ (m.s0 >>> Config.shC) })

/-- The outputs of one mixer step after another, in order. -/
def mixOutputs : List Word → Mixer → List Word
  | [], _ => []
  | x :: xs, m => (mix x m).1 :: mixOutputs xs (mix x m).2

/-- The Mixer State one mixer step after another leaves. -/
def mixStates : List Word → Mixer → Mixer
  | [], m => m
  | x :: xs, m => mixStates xs (mix x m).2

/-- The running XOR of mixer outputs, from 0 (41_block_hasher.md R121). -/
def xorAll (outs : List Word) : Word := outs.foldl (· ^^^ ·) 0#64

/-! ### The Block Hasher (R121) -/

/-- Bytes 0 to `n - 1` of `d`, first to last, each widened with zeros (R53, R54). -/
def wideBytes (d : Word) (n : Nat) : List Word := (List.range n).map fun i => zextByte (byteOf d i)

/-- What `hashBlock(d, n)` feeds the mixer: the bytes first to last, then the same bytes last to first. -/
def hashFeed (d : Word) (n : Nat) : List Word := wideBytes d n ++ (wideBytes d n).reverse

/-- `hashBlock(d, n)`: the result and the Mixer State it leaves. -/
def hashBlock (d : Word) (n : Nat) (m : Mixer) : Word × Mixer :=
  (xorAll (mixOutputs (hashFeed d n) m), mixStates (hashFeed d n) m)

/-! ### The block computation (42_digest_accumulator.md R144, R145) -/

/-- The eight block hashes of one block and the Mixer State the last call left: `f` in the forward pass, `r` in the
second pass, each indexed by sub-block. -/
structure BlockHashes where
  f : Lanes
  r : Lanes
  mixer : Mixer
  deriving DecidableEq, Repr

/-- The eight Block Hasher calls, each on the Mixer State the previous one left: sub-blocks 0, 1, 2, 3, then
3, 2, 1, 0 (R144; 90_conflicts.md C3, log entry 10). The count is always 8 (R143). -/
def blockHashes (b : Lanes) (m : Mixer) : BlockHashes :=
  let c1 := hashBlock b.l0 Config.subLen m
  let c2 := hashBlock b.l1 Config.subLen c1.2
  let c3 := hashBlock b.l2 Config.subLen c2.2
  let c4 := hashBlock b.l3 Config.subLen c3.2
  let c5 := hashBlock b.l3 Config.subLen c4.2
  let c6 := hashBlock b.l2 Config.subLen c5.2
  let c7 := hashBlock b.l1 Config.subLen c6.2
  let c8 := hashBlock b.l0 Config.subLen c7.2
  { f := ⟨c1.1, c2.1, c3.1, c4.1⟩, r := ⟨c8.1, c7.1, c6.1, c5.1⟩, mixer := c8.2 }

/-- `accumulate()`: `H[k]` takes `f[k]` and `r[3-k]` (R145). -/
def accumulate (h : Lanes) (x : BlockHashes) : Lanes :=
  { l0 := h.l0 ^^^ x.f.l0 ^^^ x.r.l3
    l1 := h.l1 ^^^ x.f.l1 ^^^ x.r.l2
    l2 := h.l2 ^^^ x.f.l2 ^^^ x.r.l1
    l3 := h.l3 ^^^ x.f.l3 ^^^ x.r.l0 }

/-! ### The Hamming Counter (43_hamming.md R171) -/

/-- `popcount64(a)`: how many bits of `a` are 1 (R11). -/
def popcount (a : Word) : Nat := (List.range 64).countP fun i => a.getLsbD i

/-- The number of bit positions in which two groups of four words differ (R171). -/
def hammingDistance (p q : Lanes) : Nat :=
  popcount (p.l0 ^^^ q.l0) + popcount (p.l1 ^^^ q.l1) + popcount (p.l2 ^^^ q.l2) + popcount (p.l3 ^^^ q.l3)

/-! ### Reset (70_reset_and_hazards.md R230) -/

/-- The reset input is asserted: the core takes no command until it is released. What the registers hold while it
is asserted cannot be observed; the model leaves them (log entry 3). -/
def assertReset (s : State) : State := { s with inReset := true }

/-- The reset input is released: every register takes its reset value (10_state.md R33). No response word is given,
and the words already given stay given. Releasing a reset that was not asserted does nothing (log entry 3). -/
def releaseReset (s : State) : State :=
  if s.inReset then { State.reset with pending := s.pending, responses := s.responses } else s

/-! ### The host's next input (R233 (a), R234) -/

/-- The host's next input and the state with it taken, if the host has one. -/
def takeInput (s : State) : Option (HostInput × State) :=
  match s.pending with
  | [] => none
  | x :: xs => some (x, { s with pending := xs })

/-- The state in which the host presents the command word `cw` next. -/
def presentWord (cw : CommandWord) (s : State) : State :=
  { s with inReset := false, pending := .command cw :: s.pending }

end Sys2Proof.Machine
end

