-- ==== Sys2Proof/Machine/BitMixer.lean ====
section
/-! DEFINITION. The Bit Mixer: `SEED`, `MIX` (spec/40_bit_mixer.md). -/

namespace Sys2Proof.Machine

/-- `SEED` (R101): the Mixer State to the seed constants. -/
def execSeed (s : State) : Host.Outcome State Fault Refusal :=
  .next (respond 0#64 { s with mixer := Mixer.seeded })

/-- `MIX d` (R103): one mixer step with input `d`; respond with its output. -/
def execMix (d : Word) (s : State) : Host.Outcome State Fault Refusal :=
  .next (respond (mix d s.mixer).1 { s with mixer := (mix d s.mixer).2 })

end Sys2Proof.Machine
end

