-- ==== Sys2Proof/Machine/BlockHasher.lean ====
section
/-! DEFINITION. The Block Hasher: `HASHB` (spec/41_block_hasher.md). -/

namespace Sys2Proof.Machine

/-- `HASHB n, d` (R122): hash bytes 0 to `n - 1` of `d`; respond with the result. A count above 8 raises
`ILLEGAL_OPERAND`. -/
def execHashb (n : Nat) (d : Word) (s : State) : Host.Outcome State Fault Refusal :=
  if countOk n then
    .next (respond (hashBlock d n s.mixer).1 { s with mixer := (hashBlock d n s.mixer).2 })
  else .next (raiseFault .illegalOperand s)

end Sys2Proof.Machine
end

