-- ==== Sys2Proof/Machine/DigestAccumulator.lean ====
section
/-! DEFINITION. The Digest Accumulator: `DINIT`, `LDB`, `DBLK`, `XACC` (spec/42_digest_accumulator.md). -/

namespace Sys2Proof.Machine

/-- `DINIT` (R141): the Mixer State to the seed constants and the four accumulators to zero. -/
def execDinit (s : State) : Host.Outcome State Fault Refusal :=
  .next (respond 0#64 { s with mixer := Mixer.seeded, h := Lanes.zero })

/-- `LDB k, n, d` (R142): `B[k] <- keep(d, n)`. A count above 8 raises `ILLEGAL_OPERAND`. -/
def execLdb (k : Lane) (n : Nat) (d : Word) (s : State) : Host.Outcome State Fault Refusal :=
  if countOk n then .next (respond 0#64 { s with b := s.b.set k (keep d n) })
  else .next (raiseFault .illegalOperand s)

/-- `DBLK` (R146): the eight Block Hasher calls on `B[0..3]`, then one XOR update of each accumulator. -/
def execDblk (s : State) : Host.Outcome State Fault Refusal :=
  .next (respond 0#64
    { s with mixer := (blockHashes s.b s.mixer).mixer, h := accumulate s.h (blockHashes s.b s.mixer) })

/-- `XACC k, d` (R147): `H[k] <- H[k] ^ d`. -/
def execXacc (k : Lane) (d : Word) (s : State) : Host.Outcome State Fault Refusal :=
  .next (respond 0#64 { s with h := s.h.set k (s.h.get k ^^^ d) })

end Sys2Proof.Machine
end

