-- ==== Sys2Proof/Machine/HammingCounter.lean ====
section
/-! DEFINITION. The Hamming Counter: `HAMD` (spec/43_hamming.md). -/

namespace Sys2Proof.Machine

/-- `HAMD` (R171): respond with the Hamming distance of `P` and `Q`; nothing is written. -/
def execHamd (s : State) : Host.Outcome State Fault Refusal :=
  .next (respond (BitVec.ofNat 64 (hammingDistance s.p s.q)) s)

end Sys2Proof.Machine
end

