-- ==== Sys2Proof/Machine/RegisterAccess.lean ====
section
/-! DEFINITION. Register access: `RDR`, `WRR` (spec/44_register_access.md). -/

namespace Sys2Proof.Machine

/-- `RDR r` (R190): respond with `REG[r]`; no register changes. -/
def execRdr (r : Reg) (s : State) : Host.Outcome State Fault Refusal :=
  .next (respond (readReg r s) s)

/-- `WRR r, d` (R191): `REG[r] <- d`, respond 0; `WRR` to `STATUS` raises `ILLEGAL_OPERAND` (R26). -/
def execWrr (r : Reg) (d : Word) (s : State) : Host.Outcome State Fault Refusal :=
  if r.writable then .next (respond 0#64 (writeReg r d s)) else .next (raiseFault .illegalOperand s)

end Sys2Proof.Machine
end

