-- ==== Sys2Proof/Machine/Dispatch.lean ====
section
/-! DEFINITION. One arm per command. -/

namespace Sys2Proof.Machine

def exec (i : Instr) (s : State) : Host.Outcome State Fault Refusal :=
  match i with
  | .rdr r => Sys2Proof.Machine.execRdr r s
  | .wrr r d => Sys2Proof.Machine.execWrr r d s
  | .seed => Sys2Proof.Machine.execSeed s
  | .mix d => Sys2Proof.Machine.execMix d s
  | .hashb n d => Sys2Proof.Machine.execHashb n d s
  | .dinit => Sys2Proof.Machine.execDinit s
  | .ldb k n d => Sys2Proof.Machine.execLdb k n d s
  | .dblk => Sys2Proof.Machine.execDblk s
  | .xacc k d => Sys2Proof.Machine.execXacc k d s
  | .hamd => Sys2Proof.Machine.execHamd s

end Sys2Proof.Machine
end

