-- ==== Sys2Proof/Machine/CommandPort.lean ====
section
/-! DEFINITION. What the core does with an input it has taken (spec/30_encoding.md R78, 70_reset_and_hazards.md R230). -/

namespace Sys2Proof.Machine

/-- Perform a command word: decode it, then do the command's rule, or take the fault (R78, R203). -/
def runWord (cw : CommandWord) (s : State) : Host.Outcome State Fault Refusal :=
  match decode cw with
  | .ok i => exec i s
  | .error f => .next (raiseFault f s)

/-- Perform one input of the host, whole (R56). A command word presented while the reset input is asserted is given
no meaning (93_implementation_defined.md U9, log entry 4). -/
def performInput (x : HostInput) (s : State) : Host.Outcome State Fault Refusal :=
  match x with
  | .command cw => if s.inReset then .refused .wordDuringReset else runWord cw s
  | .assertReset => .next (assertReset s)
  | .releaseReset => .next (releaseReset s)

end Sys2Proof.Machine
end

