-- ==== Sys2Proof/Machine/Step.lean ====
section
/-! DEFINITION. One step: the core takes the host's next input and performs it whole (20_memory.md R56). -/

namespace Sys2Proof.Machine

/-- One step. With no input the core is idle and nothing changes (70_reset_and_hazards.md R234, log entry 6);
otherwise the oldest input is taken and performed, and answered if it is a command, before the next is taken
(R56, R233 (a)). -/
def step (s : State) : Host.Outcome State Fault Refusal :=
  match takeInput s with
  | none => .next s
  | some (x, t) => performInput x t

/-- `s` with the word of the opcode table's numbering presented by the host as its very next input, and the reset
input released, so that the next step runs it (log entry 1). -/
def State.withFetchWord (s : State) (nbits w : Nat) : State := presentWord (tableWord nbits w) s

end Sys2Proof.Machine
end

