-- ==== Sys2Proof/Machine/HostContract.lean ====
section
/-! DEFINITION. The host contract, which spec/00_scope.md R6 keeps in scope and out of the hardware: cutting a message
into blocks and running `DIGEST` (42_digest_accumulator.md R155 to R158), parsing two digests and running `HAMMING`
(43_hamming.md R176 to R181), and saving and restoring a computation (44_register_access.md R192). A text is a list of
characters. The core executes none of this; the host sends command words and reads responses. -/

namespace Sys2Proof.Machine

/-! ### Pseudo-instructions (30_encoding.md R83) -/

/-- `LDP k, d` is `WRR Pk, d`. -/
def ldp (k : Lane) (d : Word) : Instr := .wrr (.p k) d

/-- `LDQ k, d` is `WRR Qk, d`. -/
def ldq (k : Lane) (d : Word) : Instr := .wrr (.q k) d

/-- `RDH k` is `RDR Hk`. -/
def rdh (k : Lane) : Instr := .rdr (.h k)

/-- `LDBZ k` is `LDB k, 0, 0x0`. -/
def ldbz (k : Lane) : Instr := .ldb k 0 0#64

/-! ### Sending commands -/

/-- The four positions in order. -/
def lanes : List Lane := [0, 1, 2, 3]

/-- The command words of a command sequence, as the host presents them. -/
def commandInputs (is : List Instr) : List HostInput := is.map fun i => .command (encode i)

/-- `k` steps, stopping at the first that has no next state: `Host.Core.run` of this machine, its types written out. -/
def runSteps : Nat → State → Host.Outcome State Fault Refusal
  | 0, s => .next s
  | k + 1, s =>
    match step s with
    | .next t => runSteps k t
    | .fault r => .fault r
    | .refused r => .refused r

/-- The host presents the commands `is`, one at a time, before whatever else it would do, and reads the responses
given to them (70_reset_and_hazards.md R233 (a)): the responses, oldest first, and the state after the last. -/
def exchange (is : List Instr) (s : State) : Option (List ResponseWord × State) :=
  match runSteps is.length { s with pending := commandInputs is ++ s.pending } with
  | .next t => some (t.responses.drop s.responses.length, t)
  | .fault _ => none
  | .refused _ => none

/-! ### From a message to its blocks (R155, R156) -/

/-- `numBlocks = max(1, ceil(L / 32))` (R155). -/
def numBlocks (len : Nat) : Nat := max 1 ((len + (Config.blockSize - 1)) / Config.blockSize)

/-- `n = min(8, max(0, L - off))`: how many message bytes fall in the sub-block at `off` (R156). -/
def subCount (len off : Nat) : Nat := min Config.subLen (len - off)

/-- `d = sum over j in 0..n-1 of message[off + j] * 2^(8*j)` (R156). -/
def subData (msg : List Byte) (off n : Nat) : Word :=
  BitVec.ofNat 64 ((List.range n).map fun j => (msg.getD (off + j) 0#8).toNat * 2 ^ (8 * j)).sum

/-- Where sub-block `k` of block `i` begins in the message (R156). -/
def subOffset (i : Nat) (k : Lane) : Nat := Config.blockSize * i + Config.subLen * k.val

/-- The `LDB` for sub-block `k` of block `i` (R156). -/
def loadCommand (msg : List Byte) (i : Nat) (k : Lane) : Instr :=
  .ldb k (subCount msg.length (subOffset i k))
    (subData msg (subOffset i k) (subCount msg.length (subOffset i k)))

/-- The commands for block `i`: four loads, then `DBLK` (R157). -/
def blockCommands (msg : List Byte) (i : Nat) : List Instr := lanes.map (loadCommand msg i) ++ [.dblk]

/-- The commands of `DIGEST message` (R157). The order of the four loads and of the four reads among themselves is
free; the model takes 0, 1, 2, 3 (log entry 14). -/
def digestCommands (msg : List Byte) : List Instr :=
  .dinit :: ((List.range (numBlocks msg.length)).flatMap (blockCommands msg) ++ lanes.map rdh)

/-! ### Rendering (R158) -/

/-- The hexadecimal digit of a value below 16: `0`..`9`, then `a`..`f` (R158, log entry 15). -/
def hexDigit (v : Nat) : Char := if v < 10 then Char.ofNat (48 + v) else Char.ofNat (87 + v)

/-- `hex16(v)`: sixteen digits, the digit of bits 63:60 first, leading zeros kept (R158). -/
def hex16 (v : Word) : List Char :=
  (List.range Config.hexPerWord).map fun i => hexDigit (v.toNat / 16 ^ (Config.hexPerWord - 1 - i) % 16)

/-- `render(h0, h1, h2, h3)`: `h3` first (R158). -/
def render (h : Lanes) : List Char := hex16 h.l3 ++ hex16 h.l2 ++ hex16 h.l1 ++ hex16 h.l0

/-- The text rendered from the responses to the four reads of `H0`, `H1`, `H2`, `H3` (R157 step 6). -/
def renderReads : List ResponseWord → Option (List Char)
  | [r0, r1, r2, r3] =>
    some (render ⟨responseValue r0, responseValue r1, responseValue r2, responseValue r3⟩)
  | _ => none

/-- `DIGEST message` run on a core (R157): the digest string and the state after the last response. -/
def runDigest (msg : List Byte) (s : State) : Option (List Char × State) :=
  match exchange (digestCommands msg) s with
  | some (rs, t) => (renderReads (rs.drop (rs.length - Config.nSub))).map fun text => (text, t)
  | none => none

/-! ### What the document's `digest` computes, said without the core -/

/-- The word at sub-block `k` of the zero-padded block `i` of the message (R156, R143). -/
def paddedWord (msg : List Byte) (i : Nat) (k : Lane) : Word := subData msg (subOffset i k) Config.subLen

/-- The zero-padded block `i` of the message: a byte past the end is 0 (R156). -/
def paddedBlock (msg : List Byte) (i : Nat) : Lanes :=
  ⟨paddedWord msg i 0, paddedWord msg i 1, paddedWord msg i 2, paddedWord msg i 3⟩

/-- One block of a digest computation: the Mixer State and the accumulators after it (R144, R145). -/
def digestBlock (msg : List Byte) (x : Mixer × Lanes) (i : Nat) : Mixer × Lanes :=
  ((blockHashes (paddedBlock msg i) x.1).mixer, accumulate x.2 (blockHashes (paddedBlock msg i) x.1))

/-- The Mixer State and the digest of a message: from the seeds and zero, block after block (R157). -/
def digestOf (msg : List Byte) : Mixer × Lanes :=
  (List.range (numBlocks msg.length)).foldl (digestBlock msg) (Mixer.seeded, Lanes.zero)

/-! ### From two digest strings to a distance (R176 to R181) -/

/-- The host's one error; it carries nothing (R178, 93_implementation_defined.md U16). -/
inductive HostError where
  | malformedDigest
  deriving DecidableEq, Repr

/-- `digit(c)`: the value of a hexadecimal digit; `A`..`F` count when `ACCEPT_UPPER` holds (R181). -/
def hexValue (c : Char) : Option Nat :=
  let n := c.toNat
  if 48 ≤ n ∧ n ≤ 57 then some (n - 48)
  else if 97 ≤ n ∧ n ≤ 102 then some (n - 87)
  else if Config.acceptUpper ∧ 65 ≤ n ∧ n ≤ 70 then some (n - 55)
  else none

/-- The digit values of a text, if every character is a hexadecimal digit. -/
def hexValues : List Char → Option (List Nat)
  | [] => some []
  | c :: cs =>
    match hexValue c, hexValues cs with
    | some v, some vs => some (v :: vs)
    | _, _ => none

/-- The number digits stand for, first digit most significant (R176). -/
def ofHexDigits (ds : List Nat) : Nat := ds.foldl (fun acc v => 16 * acc + v) 0

/-- Word `g` of a parsed string: its group `g` of sixteen digits (R176). -/
def groupWord (ds : List Nat) (g : Nat) : Word :=
  BitVec.ofNat 64 (ofHexDigits ((ds.drop (Config.hexPerWord * g)).take Config.hexPerWord))

/-- `parse(s)`: `w[g]` at position `g`, or `MalformedDigest` unless `s` is 64 hexadecimal digits (R176, R177). -/
def parse (text : List Char) : Except HostError Lanes :=
  match hexValues text with
  | some ds =>
    if ds.length = Config.hexLen then
      .ok ⟨groupWord ds 0, groupWord ds 1, groupWord ds 2, groupWord ds 3⟩
    else .error .malformedDigest
  | none => .error .malformedDigest

/-- The commands of `HAMMING` once both strings are parsed (R180). -/
def hammingCommands (wa wb : Lanes) : List Instr :=
  (lanes.flatMap fun g => [ldp g (wa.get g), ldq g (wb.get g)]) ++ [.hamd]

/-- `HAMMING a, b` run on a core (R180): `MalformedDigest` when either string fails to parse, and then nothing is
sent; otherwise the value of the last response and the state after it. -/
def runHamming (a b : List Char) (s : State) : Except HostError (Option (Nat × State)) :=
  match parse a, parse b with
  | .ok wa, .ok wb =>
    match exchange (hammingCommands wa wb) s with
    | some (rs, t) => .ok (rs.getLast?.map fun rw => ((responseValue rw).toNat, t))
    | none => .ok none
  | _, _ => .error .malformedDigest

/-! ### A block hash by hand (96_more_vectors.md P7) -/

/-- The host sends `HASHB 8, d`, then `XACC k` with the value it was answered. -/
def foldHash (k : Lane) (d : Word) (s : State) : Option State :=
  match exec (.hashb Config.subLen d) s with
  | .next t =>
    match t.responses.getLast? with
    | some rw =>
      match exec (.xacc k (responseValue rw)) t with
      | .next u => some u
      | _ => none
    | none => none
  | _ => none

/-- One `foldHash` after another. -/
def foldHashes : List (Lane × Word) → State → Option State
  | [], s => some s
  | (k, d) :: rest, s => (foldHash k d s).bind (foldHashes rest)

/-! ### Saving and restoring a computation (R192) -/

/-- The registers `CTXSAVE` reads: the six of a digest computation between blocks, or the ten when the switch falls
between the loads of a block and its `DBLK`. -/
def contextRegs (midBlock : Bool) : List Reg :=
  [.s0, .s1, .h 0, .h 1, .h 2, .h 3] ++ if midBlock then [.b 0, .b 1, .b 2, .b 3] else []

/-- `CTXSAVE` (R192). -/
def contextSave (midBlock : Bool) : List Instr := (contextRegs midBlock).map .rdr

/-- `CTXRESTORE` with the values `CTXSAVE` read, in the same order (R192). -/
def contextRestore (midBlock : Bool) (values : List Word) : List Instr :=
  List.zipWith .wrr (contextRegs midBlock) values

end Sys2Proof.Machine
end

