-- ==== Sys2Proof/Machine/Assembler.lean ====
section
/-! DEFINITION. The assembler notation of spec/30_encoding.md R82 and R83: a command's text, and the command a line of
text stands for. It belongs to the host; the core sees command words only. -/

namespace Sys2Proof.Machine

/-! ### Writing a command -/

/-- The decimal digit of a lane or a byte count (R82). -/
def decDigit (n : Nat) : Char := Char.ofNat (48 + n)

/-- The name of a register (R82). -/
def regName : Reg → List Char
  | .s0 => ['S', '0']
  | .s1 => ['S', '1']
  | .h k => ['H', decDigit k.val]
  | .b k => ['B', decDigit k.val]
  | .p k => ['P', decDigit k.val]
  | .q k => ['Q', decDigit k.val]
  | .status => "STATUS".toList

/-- A data operand: `0x` and sixteen digits (R82 allows 1 to 16). -/
def dataText (d : Word) : List Char := ['0', 'x'] ++ hex16 d

/-- The mnemonic of a command (R76). -/
def mnemonic : Instr → List Char
  | .rdr _ => "RDR".toList
  | .wrr _ _ => "WRR".toList
  | .seed => "SEED".toList
  | .mix _ => "MIX".toList
  | .hashb _ _ => "HASHB".toList
  | .dinit => "DINIT".toList
  | .ldb _ _ _ => "LDB".toList
  | .dblk => "DBLK".toList
  | .xacc _ _ => "XACC".toList
  | .hamd => "HAMD".toList

/-- The operands of a command, in the order of R76. -/
def operandTexts : Instr → List (List Char)
  | .rdr r => [regName r]
  | .wrr r d => [regName r, dataText d]
  | .seed => []
  | .mix d => [dataText d]
  | .hashb n d => [[decDigit n], dataText d]
  | .dinit => []
  | .ldb k n d => [[decDigit k.val], [decDigit n], dataText d]
  | .dblk => []
  | .xacc k d => [[decDigit k.val], dataText d]
  | .hamd => []

/-- Operands separated by commas. -/
def joinOperands : List (List Char) → List Char
  | [] => []
  | [x] => x
  | x :: y :: rest => x ++ [',', ' '] ++ joinOperands (y :: rest)

/-- The text of a command (R82). -/
def asmText (i : Instr) : List Char :=
  match operandTexts i with
  | [] => mnemonic i
  | ops => mnemonic i ++ [' '] ++ joinOperands ops

/-! ### Reading a line -/

/-- The character separates words: a space or a tab (log entry 16). -/
def isBlank (c : Char) : Bool := c == ' ' || c == '\t'

/-- The line without its comment, which starts at `;` (R82). -/
def stripComment (line : List Char) : List Char := line.takeWhile (· != ';')

/-- The text without the blanks around it. -/
def trimBlanks (text : List Char) : List Char :=
  ((text.dropWhile isBlank).reverse.dropWhile isBlank).reverse

/-- The pieces of a text between its commas. -/
def splitCommas : List Char → List (List Char)
  | [] => [[]]
  | c :: cs =>
    if c = ',' then [] :: splitCommas cs
    else
      match splitCommas cs with
      | piece :: rest => (c :: piece) :: rest
      | [] => [[c]]

/-- A lane digit 0..3 (R82). -/
def readLane : List Char → Option Lane
  | ['0'] => some 0
  | ['1'] => some 1
  | ['2'] => some 2
  | ['3'] => some 3
  | _ => none

/-- A count digit 0..8 (R82). -/
def readCount : List Char → Option Nat
  | [c] => if 48 ≤ c.toNat ∧ c.toNat ≤ 48 + Config.subLen then some (c.toNat - 48) else none
  | _ => none

/-- A data operand: `0x` and 1 to 16 hexadecimal digits, zero-extended on the left (R82). -/
def readData : List Char → Option Word
  | '0' :: 'x' :: ds =>
    match hexValues ds with
    | some vs => if 1 ≤ vs.length ∧ vs.length ≤ Config.hexPerWord then some (BitVec.ofNat 64 (ofHexDigits vs)) else none
    | none => none
  | _ => none

/-- A register name (R82). -/
def readReg? (text : List Char) : Option Reg :=
  match text with
  | ['S', '0'] => some .s0
  | ['S', '1'] => some .s1
  | ['H', c] => (readLane [c]).map .h
  | ['B', c] => (readLane [c]).map .b
  | ['P', c] => (readLane [c]).map .p
  | ['Q', c] => (readLane [c]).map .q
  | _ => if text = "STATUS".toList then some .status else none

/-- The command or pseudo-instruction of a mnemonic and its operands (R82, R83). -/
def assembleParts (mn : List Char) (ops : List (List Char)) : Option Instr :=
  match ops with
  | [] =>
    if mn = "SEED".toList then some .seed
    else if mn = "DINIT".toList then some .dinit
    else if mn = "DBLK".toList then some .dblk
    else if mn = "HAMD".toList then some .hamd
    else none
  | [x] =>
    if mn = "RDR".toList then (readReg? x).map .rdr
    else if mn = "MIX".toList then (readData x).map .mix
    else if mn = "RDH".toList then (readLane x).map rdh
    else if mn = "LDBZ".toList then (readLane x).map ldbz
    else none
  | [x, y] =>
    if mn = "WRR".toList then (readReg? x).bind fun r => (readData y).map (.wrr r)
    else if mn = "HASHB".toList then (readCount x).bind fun n => (readData y).map (.hashb n)
    else if mn = "XACC".toList then (readLane x).bind fun k => (readData y).map (.xacc k)
    else if mn = "LDP".toList then (readLane x).bind fun k => (readData y).map (ldp k)
    else if mn = "LDQ".toList then (readLane x).bind fun k => (readData y).map (ldq k)
    else none
  | [x, y, z] =>
    if mn = "LDB".toList then
      (readLane x).bind fun k => (readCount y).bind fun n => (readData z).map (.ldb k n)
    else none
  | _ => none

/-- The command a line stands for, if it stands for a legal one: `WRR STATUS, d` has a register name R82 lists and
still is no command (R76, log entry 16). -/
def assemble (line : List Char) : Option Instr :=
  let text := trimBlanks (stripComment line)
  let mn := text.takeWhile fun c => !isBlank c
  let rest := trimBlanks (text.drop mn.length)
  (assembleParts mn (if rest = [] then [] else (splitCommas rest).map trimBlanks)).filter Instr.wf

end Sys2Proof.Machine
end

