-- ==== Sys2Proof/Machine/WorkCounts.lean ====
section
/-! DEFINITION. The mixer work of a command (70_reset_and_hazards.md R237): which inputs it feeds the Bit Mixer, in
order. The counts are a step measure; no command's effect depends on them. -/

namespace Sys2Proof.Machine

/-- What the eight Block Hasher calls of a block feed the mixer, call by call (42_digest_accumulator.md R144). -/
def blockFeed (b : Lanes) : List Word :=
  [b.l0, b.l1, b.l2, b.l3, b.l3, b.l2, b.l1, b.l0].flatMap fun d => hashFeed d Config.subLen

/-- What a command feeds the mixer in state `s`. -/
def mixFeed (i : Instr) (s : State) : List Word :=
  match i with
  | .rdr _ => []
  | .wrr _ _ => []
  | .seed => []
  | .mix d => [d]
  | .hashb n d => if countOk n then hashFeed d n else []
  | .dinit => []
  | .ldb _ _ _ => []
  | .dblk => blockFeed s.b
  | .xacc _ _ => []
  | .hamd => []

/-- How many mixer steps a command performs in state `s` (R237). -/
def mixSteps (i : Instr) (s : State) : Nat := (mixFeed i s).length

end Sys2Proof.Machine
end

