-- ==== Sys2Proof/Safety.lean ====
section
/-! DEFINITION. The terms claims are stated in: what a response word may be, the invariant of the machine, legal
words, and which commands touch the registers of a computation (60_exceptions.md R216, 70_reset_and_hazards.md R233). -/

namespace Sys2Proof.Machine

/-- A response word the core may give: code `OK` with any value, or a fault code with value 0 (30_encoding.md R74). -/
abbrev legalResponse (rw : ResponseWord) : Prop :=
  responseCode rw = codeOk ∨
    ((responseCode rw = faultCode .illegalOpcode ∨ responseCode rw = faultCode .illegalOperand) ∧
      responseValue rw = 0#64)

/-- Bits 63:2 of `STATUS` are 0 (10_state.md R26). -/
abbrev statusReservedZero (s : State) : Prop := s.status >>> 2 = 0#64

/-- What every step keeps: the reserved bits of `STATUS` read as 0, and every response given is one the core may
give. -/
abbrev State.Inv (s : State) : Prop := statusReservedZero s ∧ ∀ rw ∈ s.responses, legalResponse rw

/-- The word is a command (R78). -/
def legalWord (cw : CommandWord) : Bool := (decode cw).isOk

/-- The registers of a digest computation: Mixer State, accumulators, block buffer (R233 (b)). -/
abbrev digestRegisters (s : State) : Mixer × Lanes × Lanes := (s.mixer, s.h, s.b)

/-- The registers of a distance computation (R233 (b)). -/
abbrev hammingRegisters (s : State) : Lanes × Lanes := (s.p, s.q)

/-- The register belongs to a digest computation. -/
def regOfDigest : Reg → Bool
  | .s0 => true
  | .s1 => true
  | .h _ => true
  | .b _ => true
  | .p _ => false
  | .q _ => false
  | .status => false

/-- The register belongs to a distance computation. -/
def regOfHamming : Reg → Bool
  | .p _ => true
  | .q _ => true
  | .s0 => false
  | .s1 => false
  | .h _ => false
  | .b _ => false
  | .status => false

/-- The command can write `S0`, `S1`, `H` or `B` (10_state.md R32). -/
def writesDigest : Instr → Bool
  | .rdr _ => false
  | .wrr r _ => regOfDigest r
  | .seed => true
  | .mix _ => true
  | .hashb _ _ => true
  | .dinit => true
  | .ldb _ _ _ => true
  | .dblk => true
  | .xacc _ _ => true
  | .hamd => false

/-- The command can write `P` or `Q` (R32). -/
def writesHamming : Instr → Bool
  | .rdr _ => false
  | .wrr r _ => regOfHamming r
  | .seed => false
  | .mix _ => false
  | .hashb _ _ => false
  | .dinit => false
  | .ldb _ _ _ => false
  | .dblk => false
  | .xacc _ _ => false
  | .hamd => false

/-- The word is a command that can write the registers of a digest computation; a refused word cannot (R203). -/
def wordWritesDigest (cw : CommandWord) : Bool :=
  match decode cw with
  | .ok i => writesDigest i
  | .error _ => false

/-- The word is a command that can write the registers of a distance computation. -/
def wordWritesHamming (cw : CommandWord) : Bool :=
  match decode cw with
  | .ok i => writesHamming i
  | .error _ => false

/-- The state in which the host presents the words `ws` next, one after another. -/
def presentWords (ws : List CommandWord) (s : State) : State :=
  { s with pending := ws.map .command ++ s.pending }

end Sys2Proof.Machine
end

