-- ==== Sys2Proof/Certificates/Slice0/Obligations.lean ====
section
/-! DEFINITION. The statements for the provers. A command word `cw` is presented to `s` as
`{ s with pending := .command cw :: s.pending }`; the state after its step is then said in terms of `s` itself, whose
`pending` is what the host still has to do. `respond` and `raiseFault` are what `ResponseWordsAreCodeThenValue` and
`RefusedWordTakesItsFaultAndNothingElse` say they are. The hardware has no memory, so a frame names registers and ports
only. -/

open Sys2Proof Sys2Proof.Machine

/-! ### Reset, idling, and what a step is -/

/-- The value of every register after reset (10_state.md R33). The last two clauses are how the model says that the core
is idle: the reset input is released (log entry 3, the model's choice), and a step with nothing presented changes
nothing (log entry 6, the model's reading of 70_reset_and_hazards.md R234). -/
def Obligations.ResetLeavesEveryRegisterAtItsStatedValue : Prop :=
  readReg .s0 State.reset = 0x5555555555555555#64 ∧ readReg .s1 State.reset = 0xaaaaaaaaaaaaaaaa#64 ∧
  (∀ k : Lane, readReg (.h k) State.reset = 0#64 ∧ readReg (.b k) State.reset = 0#64 ∧
    readReg (.p k) State.reset = 0#64 ∧ readReg (.q k) State.reset = 0#64) ∧
  readReg .status State.reset = 0#64 ∧ State.reset.eop = false ∧ State.reset.earg = false ∧
  State.reset.inReset = false ∧ step State.reset = .next State.reset

/-- 70_reset_and_hazards.md R230. While the reset input is asserted no command is performed and no response is given;
when it is released every register holds its reset value, whatever the state was, and the core takes the host's next
input. That the model holds the two ports beside the registers is its own choice (log entries 1 to 3). -/
def Obligations.ReleasedResetLeavesTheResetStateFromAnyState : Prop :=
  (∀ s : State, ∃ t, step { s with pending := .assertReset :: s.pending } = .next t ∧
    t.inReset = true ∧ t.responses = s.responses ∧ t.pending = s.pending) ∧
  (∀ (s : State) (cw : CommandWord) (t : State), s.inReset = true →
    step { s with pending := .command cw :: s.pending } ≠ .next t) ∧
  (∀ s : State, s.inReset = true →
    step { s with pending := .releaseReset :: s.pending } =
      .next { State.reset with pending := s.pending, responses := s.responses }) ∧
  (∀ s : State, runSteps 2 { s with pending := .assertReset :: .releaseReset :: s.pending } =
    .next { State.reset with pending := s.pending, responses := s.responses })

/-- 20_memory.md R56 and 30_encoding.md R78: when the word the host presents decodes to `i`, the step is the meaning
of `i`, the word taken, and nothing else happens around it. With nothing presented a step changes nothing (R234, log
entry 6). -/
def Obligations.StepRunsTheDecodedCommand : Prop :=
  (∀ (s : State) (cw : CommandWord) (i : Instr), s.inReset = false → decode cw = .ok i →
    step { s with pending := .command cw :: s.pending } = exec i s) ∧
  (∀ s : State, s.pending = [] → step s = .next s)

/-! ### Encoding -/

/-- 30_encoding.md R71: the seven fields and their places, most significant first. -/
def Obligations.CommandWordIsItsSevenFieldsInPlace : Prop :=
  ∀ cw : CommandWord,
    cw.toNat = (opField cw).toNat * 2 ^ 88 + (z1Field cw).toNat * 2 ^ 85 + (rField cw).toNat * 2 ^ 80 +
      (z2Field cw).toNat * 2 ^ 76 + (lenField cw).toNat * 2 ^ 72 + (z3Field cw).toNat * 2 ^ 64 + (dataField cw).toNat

/-- Decoding the word of a legal command gives the command back, with every operand (R71, R76, R78). -/
def Obligations.DecodeOfEncodeIsTheCommand : Prop :=
  ∀ i : Instr, i.wf = true → decode (encode i) = .ok i

/-- A word that decodes is the word of the legal command it decodes to: each legal word has one meaning, and no bit of
it is ignored (R73, R77). -/
def Obligations.EncodeOfDecodeIsTheWord : Prop :=
  ∀ (cw : CommandWord) (i : Instr), decode cw = .ok i → i.wf = true ∧ encode i = cw

/-- 30_encoding.md R77: a word is a legal instance of a command exactly when it has the fixed bits of that command's
row and meets the row's extra condition. -/
def Obligations.LegalExactlyWhenMaskedMatchAndExtraConditionHold : Prop :=
  ∀ row ∈ encodingTable, ∀ cw : CommandWord,
    (∃ i, decode cw = .ok i ∧ i.opcode = row.opcode) ↔
      (cw &&& row.mask = row.pattern ∧ extraCondition row.opcode cw = true)

/-- No command word has the fixed bits of two rows of R77. -/
def Obligations.NoWordFitsTwoRows : Prop :=
  ∀ row ∈ encodingTable, ∀ row' ∈ encodingTable, ∀ cw : CommandWord,
    cw &&& row.mask = row.pattern → cw &&& row'.mask = row'.pattern → row = row'

/-- 30_encoding.md R79 with 60_exceptions.md R204: the opcode test comes first; 246 of the 256 opcode values are
illegal; every other word that is no command raises `ILLEGAL_OPERAND`, and no word acts as a no-op. -/
def Obligations.EveryWordIsACommandOrOneOfTwoFaults : Prop :=
  (∀ cw : CommandWord, decode cw = .error .illegalOpcode ↔
    (opField cw).toNat ∉ [0x01, 0x02, 0x10, 0x11, 0x20, 0x30, 0x31, 0x32, 0x33, 0x40]) ∧
  (∀ cw : CommandWord, decode cw = .error .illegalOperand ↔
    (opField cw).toNat ∈ [0x01, 0x02, 0x10, 0x11, 0x20, 0x30, 0x31, 0x32, 0x33, 0x40] ∧
      ∀ row ∈ encodingTable, ¬ (cw &&& row.mask = row.pattern ∧ extraCondition row.opcode cw = true)) ∧
  ((List.range 256).countP fun v => !(assignedOpcodes.contains (BitVec.ofNat 8 v))) = 246 ∧
  decode (0#96) = .error .illegalOpcode ∧ decode (BitVec.allOnes 96) = .error .illegalOpcode

/-- 30_encoding.md R85: the worked encodings. -/
def Obligations.WorkedEncodingsDecodeToTheirCommands : Prop :=
  decode 0x300000000000000000000000#96 = .ok .dinit ∧
  decode 0x100000000000000000000000#96 = .ok .seed ∧
  decode 0x110000000000000000000001#96 = .ok (.mix 0x1#64) ∧
  decode 0x200002000000000000006261#96 = .ok (.hashb 2 0x6261#64) ∧
  decode 0x3100080077202c6f6c6c6568#96 = .ok (.ldb 0 8 0x77202c6f6c6c6568#64) ∧
  decode 0x3101060000003120646c726f#96 = .ok (.ldb 1 6 0x3120646c726f#64) ∧
  decode 0x310300000000000000000000#96 = .ok (ldbz 3) ∧
  decode 0x320000000000000000000000#96 = .ok .dblk ∧
  decode 0x3302000000000000000000ff#96 = .ok (.xacc 2 0xff#64) ∧
  decode 0x010700000000000000000000#96 = .ok (.rdr (.h 3)) ∧
  decode 0x021500000123456789abcdef#96 = .ok (.wrr (.q 1) 0x0123456789abcdef#64) ∧
  decode 0x011800000000000000000000#96 = .ok (.rdr .status) ∧
  decode 0x400000000000000000000000#96 = .ok .hamd

/-- 20_memory.md R51: which index names which register, which indices `RDR` and `WRR` accept and what they do with
them, and that they fault on the others. -/
def Obligations.RegisterIndexMapIsTheStatedOne : Prop :=
  (regOfIndex 0x00#5 = some .s0 ∧ regOfIndex 0x01#5 = some .s1 ∧ regOfIndex 0x18#5 = some .status ∧
    ∀ k : Lane, regOfIndex (BitVec.ofNat 5 (0x04 + k.val)) = some (.h k) ∧
      regOfIndex (BitVec.ofNat 5 (0x08 + k.val)) = some (.b k) ∧
      regOfIndex (BitVec.ofNat 5 (0x10 + k.val)) = some (.p k) ∧
      regOfIndex (BitVec.ofNat 5 (0x14 + k.val)) = some (.q k)) ∧
  (∀ x : BitVec 5, regOfIndex x = none ↔
    x.toNat = 0x02 ∨ x.toNat = 0x03 ∨ (0x0C ≤ x.toNat ∧ x.toNat ≤ 0x0F) ∨ 0x19 ≤ x.toNat) ∧
  (∀ (x : BitVec 5) (r : Reg) (s : State), s.inReset = false → regOfIndex x = some r →
    step { s with pending := .command (packCommand 0x01#8 x 0#4 0#64) :: s.pending } =
      .next (respond (readReg r s) s)) ∧
  (∀ (x : BitVec 5) (r : Reg) (d : Word) (s : State), s.inReset = false → regOfIndex x = some r → x ≠ 0x18#5 →
    step { s with pending := .command (packCommand 0x02#8 x 0#4 d) :: s.pending } =
      .next (respond 0#64 (writeReg r d s)) ∧ readReg r (writeReg r d s) = d) ∧
  (∀ (x : BitVec 5) (s : State), s.inReset = false → regOfIndex x = none →
    step { s with pending := .command (packCommand 0x01#8 x 0#4 0#64) :: s.pending } =
      .next (raiseFault .illegalOperand s)) ∧
  (∀ (x : BitVec 5) (d : Word) (s : State), s.inReset = false → (regOfIndex x = none ∨ x = 0x18#5) →
    step { s with pending := .command (packCommand 0x02#8 x 0#4 d) :: s.pending } =
      .next (raiseFault .illegalOperand s))

/-! ### Responses and faults -/

/-- 30_encoding.md R74: code in bits 71:64 and value in 63:0; `respond` answers `OK`, a fault answers its code and
value 0, and both only add one response word. -/
def Obligations.ResponseWordsAreCodeThenValue : Prop :=
  (∀ (v : Word) (s : State), ∃ rw, respond v s = { s with responses := s.responses ++ [rw] } ∧
    rw.toNat = v.toNat) ∧
  (∀ s : State, ∃ rw, (raiseFault .illegalOpcode s).responses = s.responses ++ [rw] ∧
    rw.toNat = 0x01 * 2 ^ 64) ∧
  (∀ s : State, ∃ rw, (raiseFault .illegalOperand s).responses = s.responses ++ [rw] ∧
    rw.toNat = 0x02 * 2 ^ 64)

/-- 60_exceptions.md R203: a refused word sets its one sticky bit, is answered with its code and value 0, and every
other register keeps its value; the core then takes the next input. -/
def Obligations.RefusedWordTakesItsFaultAndNothingElse : Prop :=
  ∀ (s : State) (cw : CommandWord) (f : CommandFault), s.inReset = false → decode cw = .error f →
    ∃ t, step { s with pending := .command cw :: s.pending } = .next t ∧
      (∀ r : Reg, r ≠ .status → readReg r t = readReg r s) ∧
      (∀ j, j < 64 → t.status.getLsbD j =
        (s.status.getLsbD j || (f = .illegalOpcode && j == 0) || (f = .illegalOperand && j == 1))) ∧
      t.responses = s.responses ++ [packResponse (match f with | .illegalOpcode => 0x01#8 | .illegalOperand => 0x02#8) 0#64] ∧
      t.pending = s.pending ∧ t.inReset = false

/-! ### Each command, from its word: what it does, and when it faults -/

/-- 44_register_access.md R190. -/
def Obligations.RdrWordAnswersTheRegisterOrFaults : Prop :=
  ∀ (s : State) (cw : CommandWord), s.inReset = false → opField cw = 0x01#8 →
    step { s with pending := .command cw :: s.pending } = .next
      (match regOfIndex (rField cw) with
       | some r =>
         if zerosOk cw = true ∧ lenField cw = 0#4 ∧ dataField cw = 0#64 then respond (readReg r s) s
         else raiseFault .illegalOperand s
       | none => raiseFault .illegalOperand s)

/-- 44_register_access.md R191. -/
def Obligations.WrrWordWritesTheRegisterOrFaults : Prop :=
  ∀ (s : State) (cw : CommandWord), s.inReset = false → opField cw = 0x02#8 →
    step { s with pending := .command cw :: s.pending } = .next
      (match regOfIndex (rField cw) with
       | some r =>
         if zerosOk cw = true ∧ lenField cw = 0#4 ∧ r ≠ .status then respond 0#64 (writeReg r (dataField cw) s)
         else raiseFault .illegalOperand s
       | none => raiseFault .illegalOperand s)

/-- 40_bit_mixer.md R101. -/
def Obligations.SeedWordSetsTheSeedsOrFaults : Prop :=
  ∀ (s : State) (cw : CommandWord), s.inReset = false → opField cw = 0x10#8 →
    step { s with pending := .command cw :: s.pending } = .next
      (if zerosOk cw = true ∧ rField cw = 0#5 ∧ lenField cw = 0#4 ∧ dataField cw = 0#64 then
         respond 0#64 { s with mixer := ⟨0x5555555555555555#64, 0xaaaaaaaaaaaaaaaa#64⟩ }
       else raiseFault .illegalOperand s)

/-- 40_bit_mixer.md R103, with the step of R102 written out: both writes use the old `S0` and `S1`. -/
def Obligations.MixWordDoesOneMixerStepOrFaults : Prop :=
  ∀ (s : State) (cw : CommandWord), s.inReset = false → opField cw = 0x11#8 →
    let s0 := s.mixer.s0
    let s1 := s.mixer.s1
    let b := s1 ^^^ (s1 <<< 23)
    step { s with pending := .command cw :: s.pending } = .next
      (if zerosOk cw = true ∧ rField cw = 0#5 ∧ lenField cw = 0#4 then
         respond (s1 + s0)
           { s with mixer := ⟨s0 ^^^ (dataField cw <<< 30), b ^^^ s0 ^^^ (b >>> 18) ^^^ (s0 >>> 5)⟩ }
       else raiseFault .illegalOperand s)

/-- 41_block_hasher.md R122; `hashBlock` is what `HashbCompletesAsTheTwoTraversals` says. -/
def Obligations.HashbWordHashesItsBytesOrFaults : Prop :=
  ∀ (s : State) (cw : CommandWord), s.inReset = false → opField cw = 0x20#8 →
    step { s with pending := .command cw :: s.pending } = .next
      (if zerosOk cw = true ∧ rField cw = 0#5 ∧ (lenField cw).toNat ≤ 8 then
         respond (hashBlock (dataField cw) (lenField cw).toNat s.mixer).1
           { s with mixer := (hashBlock (dataField cw) (lenField cw).toNat s.mixer).2 }
       else raiseFault .illegalOperand s)

/-- 42_digest_accumulator.md R141. -/
def Obligations.DinitWordStartsADigestOrFaults : Prop :=
  ∀ (s : State) (cw : CommandWord), s.inReset = false → opField cw = 0x30#8 →
    step { s with pending := .command cw :: s.pending } = .next
      (if zerosOk cw = true ∧ rField cw = 0#5 ∧ lenField cw = 0#4 ∧ dataField cw = 0#64 then
         respond 0#64 { s with mixer := ⟨0x5555555555555555#64, 0xaaaaaaaaaaaaaaaa#64⟩, h := ⟨0#64, 0#64, 0#64, 0#64⟩ }
       else raiseFault .illegalOperand s)

/-- 42_digest_accumulator.md R142: `keep(d, n) = d mod 2^(8n)`. -/
def Obligations.LdbWordLoadsItsBytesOrFaults : Prop :=
  ∀ (s : State) (cw : CommandWord), s.inReset = false → opField cw = 0x31#8 →
    step { s with pending := .command cw :: s.pending } = .next
      (if h : zerosOk cw = true ∧ (lenField cw).toNat ≤ 8 ∧ (rField cw).toNat < 4 then
         respond 0#64 { s with
           b := (s.b.set ⟨(rField cw).toNat, h.2.2⟩
             (BitVec.ofNat 64 ((dataField cw).toNat % 2 ^ (8 * (lenField cw).toNat)))) }
       else raiseFault .illegalOperand s)

/-- 42_digest_accumulator.md R146: the eight calls of R144 in their order, then the accumulation of R145. -/
def Obligations.DblkWordProcessesTheBlockOrFaults : Prop :=
  ∀ (s : State) (cw : CommandWord), s.inReset = false → opField cw = 0x32#8 →
    step { s with pending := .command cw :: s.pending } = .next
      (if zerosOk cw = true ∧ rField cw = 0#5 ∧ lenField cw = 0#4 ∧ dataField cw = 0#64 then
         let f0 := hashBlock (s.b.get 0) 8 s.mixer
         let f1 := hashBlock (s.b.get 1) 8 f0.2
         let f2 := hashBlock (s.b.get 2) 8 f1.2
         let f3 := hashBlock (s.b.get 3) 8 f2.2
         let r3 := hashBlock (s.b.get 3) 8 f3.2
         let r2 := hashBlock (s.b.get 2) 8 r3.2
         let r1 := hashBlock (s.b.get 1) 8 r2.2
         let r0 := hashBlock (s.b.get 0) 8 r1.2
         respond 0#64
           { s with
             mixer := r0.2
             h := ⟨s.h.l0 ^^^ f0.1 ^^^ r3.1, s.h.l1 ^^^ f1.1 ^^^ r2.1, s.h.l2 ^^^ f2.1 ^^^ r1.1,
               s.h.l3 ^^^ f3.1 ^^^ r0.1⟩ }
       else raiseFault .illegalOperand s) ∧
    mixSteps .dblk s = 128

/-- 42_digest_accumulator.md R147. -/
def Obligations.XaccWordXorsIntoOneAccumulatorOrFaults : Prop :=
  ∀ (s : State) (cw : CommandWord), s.inReset = false → opField cw = 0x33#8 →
    step { s with pending := .command cw :: s.pending } = .next
      (if h : zerosOk cw = true ∧ lenField cw = 0#4 ∧ (rField cw).toNat < 4 then
         respond 0#64 { s with
           h := (s.h.set ⟨(rField cw).toNat, h.2.2⟩ (s.h.get ⟨(rField cw).toNat, h.2.2⟩ ^^^ dataField cw)) }
       else raiseFault .illegalOperand s)

/-- 43_hamming.md R171: the counts of the four XORs, summed. -/
def Obligations.HamdWordAnswersTheDistanceOrFaults : Prop :=
  ∀ (s : State) (cw : CommandWord), s.inReset = false → opField cw = 0x40#8 →
    step { s with pending := .command cw :: s.pending } = .next
      (if zerosOk cw = true ∧ rField cw = 0#5 ∧ lenField cw = 0#4 ∧ dataField cw = 0#64 then
         respond (BitVec.ofNat 64
           ((List.range 64).countP (s.p.get 0 ^^^ s.q.get 0).getLsbD +
            (List.range 64).countP (s.p.get 1 ^^^ s.q.get 1).getLsbD +
            (List.range 64).countP (s.p.get 2 ^^^ s.q.get 2).getLsbD +
            (List.range 64).countP (s.p.get 3 ^^^ s.q.get 3).getLsbD)) s
       else raiseFault .illegalOperand s)

/-! ### Each command completes, and what it leaves -/

/-- `RDR` completes for every register in every state, and changes no register; read twice, it answers the same
(20_memory.md R52, 44_register_access.md R190). -/
def Obligations.RdrCompletesAndChangesNoRegister : Prop :=
  ∀ (r : Reg) (s : State),
    exec (.rdr r) s = .next { s with responses := s.responses ++ [packResponse 0x00#8 (readReg r s)] } ∧
    exec (.rdr r) (respond (readReg r s) s) = .next (respond (readReg r s) (respond (readReg r s) s))

/-- `WRR` to each of the eighteen writable registers completes and writes that register alone, whole, so no two
registers alias (10_state.md R20, R26, 20_memory.md R52, 44_register_access.md R191). That `exec` gives `WRR` to
`STATUS`, a term the decoder never gives, the fault its word takes is the model's reading (log entry 7). -/
def Obligations.WrrCompletesAndWritesItsRegisterAlone : Prop :=
  (∀ (r : Reg) (d : Word) (s : State), r ≠ .status →
    ∃ t, exec (.wrr r d) s = .next t ∧ readReg r t = d ∧ (∀ r', r' ≠ r → readReg r' t = readReg r' s) ∧
      t.responses = s.responses ++ [packResponse 0x00#8 0#64] ∧ t.pending = s.pending ∧ t.inReset = s.inReset ∧
      (∃ u, exec (.wrr r d) t = .next u ∧ ∀ r', readReg r' u = readReg r' t)) ∧
  (∀ (d : Word) (s : State), exec (.wrr .status d) s = .next (raiseFault .illegalOperand s))

/-- `SEED` and `DINIT` complete in every state; `DINIT` leaves the registers it writes at their reset values
(40_bit_mixer.md R101, 42_digest_accumulator.md R141). -/
def Obligations.SeedAndDinitComplete : Prop :=
  ∀ s : State,
    exec .seed s = .next (respond 0#64 { s with mixer := ⟨0x5555555555555555#64, 0xaaaaaaaaaaaaaaaa#64⟩ }) ∧
    exec .dinit s = .next (respond 0#64 { s with mixer := State.reset.mixer, h := State.reset.h })

/-- `MIX` completes for every operand in every state, with the step of 40_bit_mixer.md R102. -/
def Obligations.MixCompletesWithTheMixerStep : Prop :=
  ∀ (d : Word) (s : State),
    let s0 := s.mixer.s0
    let s1 := s.mixer.s1
    let b := s1 ^^^ (s1 <<< 23)
    exec (.mix d) s = .next (respond (s1 + s0)
      { s with mixer := ⟨s0 ^^^ (d <<< 30), b ^^^ s0 ^^^ (b >>> 18) ^^^ (s0 >>> 5)⟩ })

/-- `HASHB` with a count of at most 8 completes: the running XOR of the mixer outputs over the bytes first to last and
then the same bytes last to first, each zero-extended (41_block_hasher.md R121, R122, 20_memory.md R53, R54). That
`exec` gives a larger count, a term the decoder never gives, the fault is the model's reading (log entry 7). -/
def Obligations.HashbCompletesAsTheTwoTraversals : Prop :=
  (∀ (n : Nat) (d : Word) (s : State), n ≤ 8 →
    let x := (List.range n ++ (List.range n).reverse).foldl
      (fun (acc : Word × Mixer) i =>
        (acc.1 ^^^ (mix ((d >>> (8 * i)) &&& 0xff#64) acc.2).1, (mix ((d >>> (8 * i)) &&& 0xff#64) acc.2).2))
      (0#64, s.mixer)
    exec (.hashb n d) s = .next (respond x.1 { s with mixer := x.2 })) ∧
  (∀ (n : Nat) (d : Word) (s : State), 8 < n → exec (.hashb n d) s = .next (raiseFault .illegalOperand s))

/-- `LDB` with a count of at most 8 completes: `B[k]` takes lanes 0 to `n - 1` of `d` and zero in lanes `n` to 7, and
no other register changes (42_digest_accumulator.md R142). That `exec` gives a larger count, a term the decoder never
gives, the fault is the model's reading (log entry 7). -/
def Obligations.LdbCompletesLaneByLane : Prop :=
  (∀ (k : Lane) (n : Nat) (d : Word) (s : State), n ≤ 8 →
    ∃ t, exec (.ldb k n d) s = .next t ∧
      (∀ i, i < 8 → byteOf (readReg (.b k) t) i = if i < n then byteOf d i else 0#8) ∧
      (∀ r, r ≠ .b k → readReg r t = readReg r s) ∧
      t.responses = s.responses ++ [packResponse 0x00#8 0#64] ∧ t.pending = s.pending ∧ t.inReset = s.inReset) ∧
  (∀ (k : Lane) (n : Nat) (d : Word) (s : State), 8 < n →
    exec (.ldb k n d) s = .next (raiseFault .illegalOperand s))

/-- `DBLK` and `HAMD` complete in every state: `DBLK` leaves `B`, `P`, `Q`, `STATUS` and `S0` as they were, `HAMD`
every register (41_block_hasher.md R124, 42_digest_accumulator.md R146, 43_hamming.md R171). -/
def Obligations.DblkAndHamdCompleteWithTheirFrames : Prop :=
  ∀ s : State,
    (∃ t, exec .dblk s = .next t ∧ t.b = s.b ∧ t.p = s.p ∧ t.q = s.q ∧ t.status = s.status ∧
      t.mixer.s0 = s.mixer.s0 ∧ t.mixer = (blockHashes s.b s.mixer).mixer ∧
      t.h = accumulate s.h (blockHashes s.b s.mixer) ∧
      t.responses = s.responses ++ [packResponse 0x00#8 0#64] ∧ t.pending = s.pending ∧ t.inReset = s.inReset) ∧
    exec .hamd s = .next (respond (BitVec.ofNat 64 (hammingDistance s.p s.q)) s)

/-- `XACC` completes and XORs into one accumulator; done twice it restores it (42_digest_accumulator.md R147, 10_state.md
R23). -/
def Obligations.XaccCompletesAndUndoesItself : Prop :=
  ∀ (k : Lane) (d : Word) (s : State), ∃ t, exec (.xacc k d) s = .next t ∧
    readReg (.h k) t = readReg (.h k) s ^^^ d ∧ (∀ r, r ≠ .h k → readReg r t = readReg r s) ∧
    t.responses = s.responses ++ [packResponse 0x00#8 0#64] ∧ t.pending = s.pending ∧ t.inReset = s.inReset ∧
    ∃ u, exec (.xacc k d) t = .next u ∧ ∀ r, readReg r u = readReg r s

/-- 10_state.md R32, the writes: what each command leaves unchanged, and that a command that faults writes only
`STATUS`. That a term which is no legal command faults in `exec` too is the model's reading (log entry 7). -/
def Obligations.CommandsWriteOnlyTheirRegisters : Prop :=
  ∀ (i : Instr) (s t : State), exec i s = .next t →
    (i.wf = true → t.status = s.status) ∧
    (i.wf = false → t = raiseFault .illegalOperand s) ∧
    (match i with
     | .seed | .mix _ | .hashb _ _ | .dinit | .dblk | .wrr .s0 _ | .wrr .s1 _ => True
     | _ => t.mixer = s.mixer) ∧
    (match i with
     | .dinit | .dblk => True
     | .xacc k _ | .wrr (.h k) _ => ∀ j, j ≠ k → t.h.get j = s.h.get j
     | _ => t.h = s.h) ∧
    (match i with
     | .ldb k _ _ | .wrr (.b k) _ => ∀ j, j ≠ k → t.b.get j = s.b.get j
     | _ => t.b = s.b) ∧
    (match i with
     | .wrr (.p k) _ => ∀ j, j ≠ k → t.p.get j = s.p.get j
     | _ => t.p = s.p) ∧
    (match i with
     | .wrr (.q k) _ => ∀ j, j ≠ k → t.q.get j = s.q.get j
     | _ => t.q = s.q) ∧
    t.inReset = s.inReset ∧ t.pending = s.pending

/-! ### Laws of the units -/

/-- 40_bit_mixer.md R105 and R106. -/
def Obligations.MixerStepObeysItsLaws : Prop :=
  (∀ (x y : Word) (m : Mixer), (mix x m).1 = (mix y m).1 ∧ (mix x m).2.s1 = (mix y m).2.s1) ∧
  (∀ (x : Word) (m : Mixer) (i : Nat), i < 64 → (mix x m).2.s0.getLsbD i =
    (m.s0.getLsbD i ^^ (decide (30 ≤ i) && x.getLsbD (i - 30)))) ∧
  (∀ (x y : Word) (m : Mixer), (∀ i, i ≤ 33 → x.getLsbD i = y.getLsbD i) → mix x m = mix y m) ∧
  (∀ (x : Word) (m : Mixer), x.toNat ≤ 255 →
    ((mix x m).2.s0 ^^^ m.s0).toNat = x.toNat * 2 ^ 30) ∧
  (∀ (x : Word) (m : Mixer), (mix x (mix x m).2).2.s0 = m.s0) ∧
  mix 0#64 ⟨0#64, 0#64⟩ = (0#64, ⟨0#64, 0#64⟩)

/-- 41_block_hasher.md R124: (a) `S0` is restored, (b) the first output does not depend on the bytes, (c) the last step
of the first traversal and the first of the second take the same byte, (d) at most 16 steps, (e) the fixed point; and
only lanes below `n` are read (R121). -/
def Obligations.HashBlockObeysItsLaws : Prop :=
  (∀ (d : Word) (n : Nat) (m : Mixer), (hashBlock d n m).2.s0 = m.s0) ∧
  (∀ (d : Word) (n : Nat) (m : Mixer), 1 ≤ n → (mixOutputs (hashFeed d n) m).head? = some (m.s1 + m.s0)) ∧
  (∀ (d : Word) (n : Nat), 1 ≤ n →
    (hashFeed d n)[n - 1]? = some (zextByte (byteOf d (n - 1))) ∧
    (hashFeed d n)[n]? = some (zextByte (byteOf d (n - 1)))) ∧
  (∀ (d : Word) (n : Nat), n ≤ 8 → (hashFeed d n).length ≤ 16) ∧
  (∀ (d : Word) (n : Nat), (∀ i, i < n → byteOf d i = 0#8) → hashBlock d n ⟨0#64, 0#64⟩ = (0#64, ⟨0#64, 0#64⟩)) ∧
  (∀ (d d' : Word) (n : Nat) (m : Mixer), (∀ i, i < n → byteOf d i = byteOf d' i) → hashBlock d n m = hashBlock d' n m)

/-- 41_block_hasher.md R123 and 70_reset_and_hazards.md R237: how many mixer steps each command performs, that the
Mixer State after a command that does not write it outright is what those steps leave, and that with no byte there is
no step: the result is 0 and `S0`, `S1` do not change. -/
def Obligations.MixerWorkPerCommandIsTheStatedCount : Prop :=
  (∀ (i : Instr) (s : State), i.wf = true → mixSteps i s =
    match i with
    | .mix _ => 1
    | .hashb n _ => 2 * n
    | .dblk => 128
    | _ => 0) ∧
  (∀ (d : Word) (m : Mixer), hashFeed d 0 = [] ∧ hashBlock d 0 m = (0#64, m)) ∧
  (∀ (i : Instr) (s t : State), exec i s = .next t →
    (match i with
     | .seed | .dinit | .wrr .s0 _ | .wrr .s1 _ => True
     | _ => t.mixer = mixStates (mixFeed i s) s.mixer))

/-- 43_hamming.md R172: self-distance 0, symmetry, range 0..256; and 256 exactly for complements in every lane, and 0
only for equal operands (R171). -/
def Obligations.HammingDistanceObeysItsLaws : Prop :=
  (∀ p q : Lanes, hammingDistance p q = 0 ↔ p = q) ∧
  (∀ p q : Lanes, hammingDistance p q = hammingDistance q p) ∧
  (∀ p q : Lanes, hammingDistance p q ≤ 256) ∧
  (∀ p q : Lanes, hammingDistance p q = 256 ↔ ∀ k, p.get k = ~~~ (q.get k)) ∧
  (∀ p q : Lanes, (BitVec.ofNat 64 (hammingDistance p q)).toNat = hammingDistance p q)

/-- `DBLK` is the composition of the units it is built from (96_more_vectors.md P7): eight `HASHB 8` in the order of
R144, each answer folded into its accumulator by `XACC` as R145 pairs them, leave the registers `DBLK` leaves. -/
def Obligations.DblkIsEightHashbAndXacc : Prop :=
  ∀ s t : State, exec .dblk s = .next t →
    ∃ u, foldHashes [(0, s.b.get 0), (1, s.b.get 1), (2, s.b.get 2), (3, s.b.get 3),
        (0, s.b.get 3), (1, s.b.get 2), (2, s.b.get 1), (3, s.b.get 0)] s = some u ∧
      ∀ r : Reg, readReg r u = readReg r t

/-! ### The whole machine -/

/-- The invariant holds after reset (10_state.md R33). -/
def Obligations.InvariantHoldsAfterReset : Prop := State.reset.Inv

/-- Every step keeps the invariant: the reserved bits of `STATUS` read as 0 (10_state.md R26), and every response word
given is `OK`, or a fault code with value 0 (30_encoding.md R74). That the registers are left while reset is asserted,
and that the responses given are kept across reset, are the model's choices (log entries 3 and 2). -/
def Obligations.StepKeepsTheInvariant : Prop :=
  ∀ s t : State, s.Inv → step s = .next t → t.Inv

/-- Only the release of an asserted reset clears a bit of `STATUS`, and only a refused word sets one, its own
(10_state.md R26, 60_exceptions.md R205). That `STATUS` is left while reset is asserted is the model's choice (log entry
3). -/
def Obligations.StatusBitsAreStickyUntilReset : Prop :=
  ∀ s t : State, step s = .next t →
    t.status = s.status ∨
    (∃ cw f rest, s.pending = .command cw :: rest ∧ decode cw = .error f ∧ t.status = s.status ||| stickyBit f) ∨
    (∃ rest, s.pending = .releaseReset :: rest ∧ s.inReset = true ∧ t.status = 0#64)

/-- Every command word presented to a core out of reset is taken and answered, once each and in order, whatever the
words are: a run over them ends in a next state, never hangs, and gives as many responses as words, each legal
(30_encoding.md R74, 70_reset_and_hazards.md R234, R236). -/
def Obligations.EveryCommandWordIsAnsweredOnceInOrder : Prop :=
  ∀ (ws : List CommandWord) (s : State), s.inReset = false →
    ∃ (t : State) (rs : List ResponseWord), runSteps ws.length (presentWords ws s) = .next t ∧
      t.responses = s.responses ++ rs ∧ rs.length = ws.length ∧
      (∀ rw ∈ rs, legalResponse rw) ∧
      (∀ j : Nat, (rs[j]?.map fun rw => responseCode rw) = (ws[j]?.map fun cw =>
        match decode cw with | .ok _ => 0x00#8 | .error .illegalOpcode => 0x01#8 | .error .illegalOperand => 0x02#8)) ∧
      t.pending = s.pending ∧ t.inReset = false

/-- `STATUS` tells of the whole run: from `STATUS` 0, `EOP` is set exactly when some word raised `ILLEGAL_OPCODE`, `EARG`
exactly when some word raised `ILLEGAL_OPERAND`, and `STATUS` is 0 at the end exactly when every word was a command
(60_exceptions.md R216, 10_state.md R26). -/
def Obligations.StatusTellsWhichFaultsARunRaised : Prop :=
  ∀ (ws : List CommandWord) (s t : State), s.inReset = false → s.status = 0#64 →
    runSteps ws.length (presentWords ws s) = .next t →
    (t.eop = true ↔ ∃ cw ∈ ws, decode cw = .error .illegalOpcode) ∧
    (t.earg = true ↔ ∃ cw ∈ ws, decode cw = .error .illegalOperand) ∧
    (t.status = 0#64 ↔ ∀ cw ∈ ws, legalWord cw = true)

/-- Refused words do not disturb a run: leaving them out gives the same registers, `STATUS` aside (60_exceptions.md
R203, R205). -/
def Obligations.RefusedWordsLeaveTheRunUndisturbed : Prop :=
  ∀ (ws : List CommandWord) (s t u : State), s.inReset = false →
    runSteps ws.length (presentWords ws s) = .next t →
    runSteps (ws.filter legalWord).length (presentWords (ws.filter legalWord) s) = .next u →
    ∀ r : Reg, r ≠ .status → readReg r t = readReg r u

/-- A digest computation is disturbed only by commands that write `S0`, `S1`, `H` or `B`: leaving out every other word
of a run gives the same values there (70_reset_and_hazards.md R233 (b), 90_conflicts.md C9, 43_hamming.md R180). -/
def Obligations.OnlyWritesToDigestRegistersDisturbADigest : Prop :=
  ∀ (ws : List CommandWord) (s t u : State), s.inReset = false →
    runSteps ws.length (presentWords ws s) = .next t →
    runSteps (ws.filter wordWritesDigest).length (presentWords (ws.filter wordWritesDigest) s) = .next u →
    digestRegisters t = digestRegisters u

/-- `P` and `Q` change by `WRR` only: leaving out every word of a run that does not write them gives the same operands
(10_state.md R25, 70_reset_and_hazards.md R233 (b)). -/
def Obligations.OnlyWritesToOperandRegistersDisturbADistance : Prop :=
  (∀ i : Instr, writesHamming i = true → ∃ r d, i = .wrr r d) ∧
  (∀ (ws : List CommandWord) (s t u : State), s.inReset = false →
    runSteps ws.length (presentWords ws s) = .next t →
    runSteps (ws.filter wordWritesHamming).length (presentWords (ws.filter wordWritesHamming) s) = .next u →
    hammingRegisters t = hammingRegisters u)

/-- No command reads `STATUS` to decide what it does (10_state.md R26): from two states that differ in `STATUS` alone a
command leaves the same other registers, and answers the same unless it is `RDR STATUS`. -/
def Obligations.StatusDecidesNothing : Prop :=
  ∀ (i : Instr) (s t : State) (x : Word), exec i s = .next t →
    ∃ u, exec i { s with status := x } = .next u ∧
      (∀ r : Reg, r ≠ .status → readReg r u = readReg r t) ∧
      (i ≠ .rdr .status → u.responses = t.responses)

/-- A command reads no port: what the host has presented and what the core has answered, and the reset line, change
neither its effect on the registers nor its answer (10_state.md R20). -/
def Obligations.CommandsReadNoPort : Prop :=
  ∀ (i : Instr) (s t : State) (line : Bool) (ins : List HostInput) (outs : List ResponseWord), exec i s = .next t →
    ∃ u rw, exec i { s with inReset := line, pending := ins, responses := outs } = .next u ∧
      (∀ r : Reg, readReg r u = readReg r t) ∧
      t.responses = s.responses ++ [rw] ∧ u.responses = outs ++ [rw] ∧ u.pending = ins ∧ u.inReset = line

/-! ### The host contract -/

/-- 42_digest_accumulator.md R155: at least one block, no block that is not needed, and no extra block for an exact
multiple of 32. -/
def Obligations.BlockCountIsTheStatedOne : Prop :=
  (∀ len : Nat, 1 ≤ numBlocks len ∧ len ≤ 32 * numBlocks len ∧ (1 ≤ len → 32 * (numBlocks len - 1) < len)) ∧
  numBlocks 0 = 1 ∧ numBlocks 31 = 1 ∧ numBlocks 32 = 1 ∧ numBlocks 33 = 2 ∧ numBlocks 64 = 2

/-- 42_digest_accumulator.md R156: what the four `LDB` commands of a block leave in `B` is the padded block: lane `j` of
`B[k]` is the message byte at `32*i + 8*k + j`, and 0 past the end. -/
def Obligations.LoadsLeaveThePaddedBlock : Prop :=
  ∀ (msg : List Byte) (i : Nat) (s : State), s.inReset = false →
    ∃ rs t, exchange (lanes.map (loadCommand msg i)) s = some (rs, t) ∧
      ∀ (k : Lane) (j : Nat), j < 8 → byteOf (readReg (.b k) t) j = msg.getD (32 * i + 8 * k.val + j) 0#8

/-- 42_digest_accumulator.md R157: on any core out of reset, whatever its registers hold, `DIGEST` ends with the digest
the document's algorithm gives, rendered; every word is answered `OK`; `P`, `Q` and `STATUS` are as before. -/
def Obligations.DigestProtocolComputesTheDigest : Prop :=
  ∀ (msg : List Byte) (s : State), s.inReset = false →
    ∃ t, runDigest msg s = some (render (digestOf msg).2, t) ∧
      t.mixer = (digestOf msg).1 ∧ t.h = (digestOf msg).2 ∧ t.b = paddedBlock msg (numBlocks msg.length - 1) ∧
      t.p = s.p ∧ t.q = s.q ∧ t.status = s.status ∧ t.pending = s.pending ∧
      (∀ rw ∈ t.responses.drop s.responses.length, responseCode rw = 0x00#8)

/-- 70_reset_and_hazards.md R237: the commands of `DIGEST` perform 128 mixer steps per block of the message, whatever
state the command at each position meets; the states of a run are one choice of `meets`. -/
def Obligations.DigestWorkIsTheStatedCount : Prop :=
  ∀ (msg : List Byte) (meets : Nat → State),
    ((digestCommands msg).mapIdx fun j i => mixSteps i (meets j)).sum = 128 * numBlocks msg.length

/-- 42_digest_accumulator.md R159 and R22: the digest is 64 characters of `[0-9a-f]`, and does not depend on what the
core did before. -/
def Obligations.DigestIsIndependentOfPriorCommands : Prop :=
  ∀ (msg : List Byte) (s s' : State), s.inReset = false → s'.inReset = false →
    ∃ text t t', runDigest msg s = some (text, t) ∧ runDigest msg s' = some (text, t') ∧
      text.length = 64 ∧ (∀ c ∈ text, c ∈ "0123456789abcdef".toList) ∧ t.mixer.s0 = 0x5555555555555555#64

/-- 42_digest_accumulator.md R160: what `DIGEST` sends for the empty message and the digest it gives; zero bytes
appended within the same number of blocks do not change a digest; so one zero byte and 32 zero bytes give that of the
empty message. The string is the spec's computation from its rules (log entry 8); the order of the four loads and of
the four reads, which R157 leaves free, is the model's choice (log entry 14). -/
def Obligations.TrailingZerosInTheLastBlockKeepTheDigest : Prop :=
  digestCommands [] = [.dinit, .ldb 0 0 0#64, .ldb 1 0 0#64, .ldb 2 0 0#64, .ldb 3 0 0#64, .dblk] ++ lanes.map rdh ∧
  (∀ s : State, s.inReset = false → ∃ t,
    runDigest [] s = some ("a582d1d4e8eaf5534ade9b326d081316f6c3ddf5579db2f8ebf216ca367be784".toList, t)) ∧
  (∀ (msg : List Byte) (n : Nat), numBlocks (msg.length + n) = numBlocks msg.length →
    digestOf (msg ++ List.replicate n 0#8) = digestOf msg) ∧
  digestOf [0#8] = digestOf [] ∧ digestOf (List.replicate 32 0#8) = digestOf []

/-- 42_digest_accumulator.md R158 and 43_hamming.md R179: a rendered digest parses back to its words, group `g` being
`H[3 - g]`. -/
def Obligations.ParseOfRenderIsTheWordsReversed : Prop :=
  ∀ h : Lanes, parse (render h) = .ok ⟨h.l3, h.l2, h.l1, h.l0⟩

/-- 43_hamming.md R176, R177, R181: a string parses exactly when it has 64 characters and each is a hexadecimal digit;
word `g` is then the sum over `i` of `digit(s[16*g + i]) * 16^(15 - i)`, the digit of a character being its place, upper
case as lower, in `0123456789abcdef`; and the case of a string does not matter. Upper case counts by the parameter
`ACCEPT_UPPER` (log entry 17), and the characters of the digits are log entry 15's. -/
def Obligations.ParseAcceptsExactlySixtyFourHexDigits : Prop :=
  (∀ text : List Char, (∃ w, parse text = .ok w) ↔
    text.length = 64 ∧ ∀ c ∈ text, c ∈ "0123456789abcdefABCDEF".toList) ∧
  (∀ text : List Char, parse text = .error .malformedDigest ↔ ¬ ∃ w, parse text = .ok w) ∧
  (∀ (text : List Char) (w : Lanes), parse text = .ok w → ∀ g : Lane,
    (w.get g).toNat = ((List.range 16).map fun i =>
      "0123456789abcdef".toList.idxOf (text.getD (16 * g.val + i) '0').toLower * 16 ^ (15 - i)).sum) ∧
  (∀ text : List Char, parse (text.map Char.toLower) = parse text)

/-- 43_hamming.md R180 and R178: with two well-formed strings the protocol ends with the distance of the parsed words,
`S0`, `S1`, `H` and `B` as before; with a malformed one it fails and nothing is sent. -/
def Obligations.HammingProtocolAnswersTheDistance : Prop :=
  (∀ (a b : List Char) (wa wb : Lanes) (s : State), s.inReset = false → parse a = .ok wa → parse b = .ok wb →
    ∃ t, runHamming a b s = .ok (some (hammingDistance wa wb, t)) ∧ t.p = wa ∧ t.q = wb ∧
      digestRegisters t = digestRegisters s ∧ t.status = s.status) ∧
  (∀ (a b : List Char) (s : State), parse a = .error .malformedDigest ∨ parse b = .error .malformedDigest →
    runHamming a b s = .error .malformedDigest)

/-- 44_register_access.md R192: a computation saved, displaced by any legal commands, and restored is as it was. -/
def Obligations.RestoredContextIsTheSavedOne : Prop :=
  ∀ (midBlock : Bool) (between : List Instr) (s : State), s.inReset = false → (∀ i ∈ between, i.wf = true) →
    ∃ rs t rs' u rs'' v, exchange (contextSave midBlock) s = some (rs, t) ∧ exchange between t = some (rs', u) ∧
      exchange (contextRestore midBlock (rs.map responseValue)) u = some (rs'', v) ∧
      v.mixer = s.mixer ∧ v.h = s.h ∧ (midBlock = true → v.b = s.b)

/-- 30_encoding.md R82: the line written for a legal command assembles to that command. -/
def Obligations.AssembleOfAsmTextIsTheCommand : Prop :=
  ∀ i : Instr, i.wf = true → assemble (asmText i) = some i
end

