-- ==== Sys2Proof/Laws/Decode.lean ====
section
/-! SUPPORT. The fields of a packed command word, a word from its fields, and the register index map. -/

namespace Sys2Proof

section fields
variable (op : BitVec 8) (r : BitVec 5) (len : BitVec 4) (data : Word)

@[simp] theorem opField_packCommand : opField (packCommand op r len data) = op := by
  unfold opField packCommand
  repeat rw [BitVec.extractLsb'_append_eq_of_le (by decide)]
  exact BitVec.extractLsb'_eq_self

@[simp] theorem z1Field_packCommand : z1Field (packCommand op r len data) = 0#3 := by
  unfold z1Field packCommand
  repeat rw [BitVec.extractLsb'_append_eq_of_le (by decide)]
  rw [BitVec.extractLsb'_append_eq_of_add_le (by decide)]
  exact BitVec.extractLsb'_eq_self

@[simp] theorem rField_packCommand : rField (packCommand op r len data) = r := by
  unfold rField packCommand
  repeat rw [BitVec.extractLsb'_append_eq_of_le (by decide)]
  rw [BitVec.extractLsb'_append_eq_of_add_le (by decide)]
  exact BitVec.extractLsb'_eq_self

@[simp] theorem z2Field_packCommand : z2Field (packCommand op r len data) = 0#4 := by
  unfold z2Field packCommand
  repeat rw [BitVec.extractLsb'_append_eq_of_le (by decide)]
  rw [BitVec.extractLsb'_append_eq_of_add_le (by decide)]
  exact BitVec.extractLsb'_eq_self

@[simp] theorem lenField_packCommand : lenField (packCommand op r len data) = len := by
  unfold lenField packCommand
  repeat rw [BitVec.extractLsb'_append_eq_of_le (by decide)]
  rw [BitVec.extractLsb'_append_eq_of_add_le (by decide)]
  exact BitVec.extractLsb'_eq_self

@[simp] theorem z3Field_packCommand : z3Field (packCommand op r len data) = 0#8 := by
  unfold z3Field packCommand
  repeat rw [BitVec.extractLsb'_append_eq_of_le (by decide)]
  rw [BitVec.extractLsb'_append_eq_of_add_le (by decide)]
  exact BitVec.extractLsb'_eq_self

@[simp] theorem dataField_packCommand : dataField (packCommand op r len data) = data := by
  unfold dataField packCommand
  rw [BitVec.extractLsb'_append_eq_of_add_le (by decide)]
  exact BitVec.extractLsb'_eq_self

@[simp] theorem zerosOk_packCommand : zerosOk (packCommand op r len data) = true := by
  simp [zerosOk]

end fields

/-- A command word is its seven fields. -/
theorem fields_join (cw : CommandWord) :
    opField cw ++ z1Field cw ++ rField cw ++ z2Field cw ++ lenField cw ++ z3Field cw ++ dataField cw = cw := by
  apply BitVec.eq_of_getLsbD_eq
  intro i hi
  simp only [opField, z1Field, rField, z2Field, lenField, z3Field, dataField, BitVec.getLsbD_append,
    BitVec.getLsbD_extractLsb']
  split_ifs <;> (rw [decide_eq_true (by omega), Bool.true_and]; congr 1; omega)

/-- A word whose must-be-zero fields are zero is packed from its other fields. -/
theorem packCommand_fields {cw : CommandWord} (h : zerosOk cw = true) :
    packCommand (opField cw) (rField cw) (lenField cw) (dataField cw) = cw := by
  simp only [zerosOk, Bool.and_eq_true, beq_iff_eq] at h
  conv_rhs => rw [← fields_join cw]
  rw [packCommand, h.1.1, h.1.2, h.2]

/-- Two words are equal when their fields are. -/
theorem word_eq_iff (a b : CommandWord) :
    a = b ↔ opField a = opField b ∧ z1Field a = z1Field b ∧ rField a = rField b ∧ z2Field a = z2Field b ∧
      lenField a = lenField b ∧ z3Field a = z3Field b ∧ dataField a = dataField b := by
  constructor
  · rintro rfl; simp
  · rintro ⟨h1, h2, h3, h4, h5, h6, h7⟩
    rw [← fields_join a, ← fields_join b, h1, h2, h3, h4, h5, h6, h7]

/-- Masking a word masks its opcode. -/
theorem opField_and (a b : CommandWord) : opField (a &&& b) = opField a &&& opField b := by
  simp [opField, BitVec.extractLsb'_and]

/-- What a word that decodes has passed. -/
theorem decode_ok_fields {cw : CommandWord} {i : Instr} (h : decode cw = .ok i) :
    opField cw ∈ assignedOpcodes ∧ zerosOk cw = true ∧
      decodeOperands (opField cw) (rField cw) (lenField cw) (dataField cw) = some i := by
  unfold decode at h
  split at h
  · rename_i ha
    split at h
    · rename_i hz
      split at h
      · rename_i i' h'
        cases h
        exact ⟨ha, hz, h'⟩
      · cases h
    · cases h
  · cases h

@[simp] theorem regOfIndex_regIndex (r : Reg) : regOfIndex (regIndex r) = some r := by
  rcases r with _ | _ | k | k | k | k | _
  case s0 | s1 | status => decide
  all_goals revert k; decide

theorem regIndex_regOfIndex {x : BitVec 5} {r : Reg} (h : regOfIndex x = some r) : regIndex r = x := by
  have key : ∀ x : BitVec 5, ∀ r ∈ regOfIndex x, regIndex r = x := by decide
  exact key x r h

@[simp] theorem laneOfField_laneField (k : Lane) : laneOfField (laneField k) = some k := by
  revert k; decide

theorem laneField_laneOfField {x : BitVec 5} {k : Lane} (h : laneOfField x = some k) : laneField k = x := by
  have key : ∀ x : BitVec 5, ∀ k ∈ laneOfField x, laneField k = x := by decide
  exact key x k h

/-- A byte count of at most 8 fits the four bits of `len`. -/
theorem toNat_ofNat_count {n : Nat} (h : countOk n = true) : (BitVec.ofNat 4 n).toNat = n := by
  have hn : n ≤ 8 := of_decide_eq_true h
  rw [BitVec.toNat_ofNat]
  omega

end Sys2Proof
end

