-- ==== Sys2Proof/Laws/HostContract.lean ====
section
/-! SUPPORT. What the host's readers of text can do, said once: a digit, a text of digits, and the number digits stand for. -/

namespace Sys2Proof.Machine

/-- Beyond ASCII there is no digit. -/
theorem hexValue_of_ge {c : Char} (h : 128 ≤ c.toNat) : hexValue c = none := by
  simp only [hexValue]
  rw [if_neg (by omega), if_neg (by omega), if_neg (by omega)]

/-- Beyond ASCII there is no other case. -/
theorem toLower_of_ge {c : Char} (h : 128 ≤ c.toNat) : c.toLower = c := by
  unfold Char.toLower
  rw [dif_neg]
  rintro ⟨_, h2⟩
  have : c.toNat ≤ 90 := UInt32.le_iff_toNat_le.1 h2
  omega

/-- What the 128 ASCII characters satisfy, one of them does. -/
theorem ascii_cases {P : Char → Prop} (h : ∀ n < 128, P (Char.ofNat n)) {c : Char} (hc : c.toNat < 128) : P c := by
  have := h _ hc
  rwa [Char.ofNat_toNat] at this

/-- The characters that count as hexadecimal digits (43_hamming.md R181). -/
theorem hexValue_isSome_iff (c : Char) : (hexValue c).isSome = true ↔ c ∈ "0123456789abcdefABCDEF".toList := by
  by_cases hc : c.toNat < 128
  · exact ascii_cases (P := fun c => (hexValue c).isSome = true ↔ c ∈ "0123456789abcdefABCDEF".toList)
      (by decide +kernel) hc
  · rw [hexValue_of_ge (by omega)]
    have key : ("0123456789abcdefABCDEF".toList.all fun d => decide (d.toNat < 128)) = true := by decide +kernel
    simp only [Option.isSome_none, Bool.false_eq_true, false_iff]
    exact fun h => hc (of_decide_eq_true (List.all_eq_true.1 key c h))

/-- A digit's value is below 16 and its place in the alphabet, upper case as lower. -/
theorem hexValue_eq_some {c : Char} {v : Nat} (h : hexValue c = some v) :
    v < 16 ∧ v = "0123456789abcdef".toList.idxOf c.toLower := by
  by_cases hc : c.toNat < 128
  · exact ascii_cases
      (P := fun c => ∀ v ∈ hexValue c, v < 16 ∧ v = "0123456789abcdef".toList.idxOf c.toLower)
      (by decide +kernel) hc v h
  · rw [hexValue_of_ge (by omega)] at h
    cases h

theorem hexValue_toLower (c : Char) : hexValue c.toLower = hexValue c := by
  by_cases hc : c.toNat < 128
  · exact ascii_cases (P := fun c => hexValue c.toLower = hexValue c) (by decide +kernel) hc
  · rw [toLower_of_ge (by omega)]

/-- A text has digit values exactly when each of its characters does, and they are these. -/
theorem hexValues_eq_some_iff (cs : List Char) (vs : List Nat) :
    hexValues cs = some vs ↔ cs.map hexValue = vs.map some := by
  induction cs generalizing vs with
  | nil => cases vs <;> simp [hexValues]
  | cons c cs ih =>
    cases vs with
    | nil => cases h : hexValue c <;> cases h' : hexValues cs <;> simp [hexValues, h, h']
    | cons v vs =>
      have := ih vs
      cases h : hexValue c <;> cases h' : hexValues cs <;> simp_all [hexValues]

theorem hexValues_length {cs : List Char} {vs : List Nat} (h : hexValues cs = some vs) : vs.length = cs.length := by
  simpa using (congrArg List.length ((hexValues_eq_some_iff cs vs).1 h)).symm

/-- When `parse` gives words, and which (R176, R177). -/
theorem parse_eq_ok_iff {text : List Char} {w : Lanes} :
    parse text = .ok w ↔ ∃ ds, hexValues text = some ds ∧ ds.length = 64 ∧
      w = ⟨groupWord ds 0, groupWord ds 1, groupWord ds 2, groupWord ds 3⟩ := by
  unfold parse
  cases h : hexValues text with
  | none => simp
  | some ds =>
    by_cases hl : ds.length = 64 <;> simp [hl, Config.hexLen, Config.nSub, Config.hexPerWord, eq_comm]

/-- The number digits stand for, digit by digit (43_hamming.md R176). -/
theorem ofHexDigits_cons (v : Nat) (vs : List Nat) :
    ofHexDigits (v :: vs) = v * 16 ^ vs.length + ofHexDigits vs := by
  have key : ∀ (vs : List Nat) (a : Nat),
      vs.foldl (fun acc v => 16 * acc + v) a = a * 16 ^ vs.length + ofHexDigits vs := by
    intro vs
    induction vs with
    | nil => intro a; simp [ofHexDigits]
    | cons w vs ih =>
      intro a
      simp only [ofHexDigits, List.foldl_cons, List.length_cons]
      rw [ih, ih (16 * 0 + w)]
      ring
  simpa [ofHexDigits] using key vs v

/-- The same as one sum, the first digit most significant. -/
theorem ofHexDigits_eq_sum (vs : List Nat) :
    ofHexDigits vs = ((List.range vs.length).map fun i => vs.getD i 0 * 16 ^ (vs.length - 1 - i)).sum := by
  induction vs with
  | nil => rfl
  | cons v vs ih =>
    rw [ofHexDigits_cons, ih, List.length_cons, List.range_succ_eq_map, List.map_cons, List.sum_cons]
    congr 1
    rw [List.map_map]
    refine congrArg List.sum (List.map_congr_left fun i hi => ?_)
    have := List.mem_range.1 hi
    simp only [Function.comp, List.getD_cons_succ]
    congr 2
    omega

theorem ofHexDigits_lt {vs : List Nat} (h : ∀ v ∈ vs, v < 16) : ofHexDigits vs < 16 ^ vs.length := by
  induction vs with
  | nil => simp [ofHexDigits]
  | cons v vs ih =>
    rw [ofHexDigits_cons, List.length_cons, pow_succ]
    have hv := h v (by simp)
    have ht := ih fun w hw => h w (by simp [hw])
    nlinarith [Nat.pow_pos (n := vs.length) (show 0 < 16 by decide)]

end Sys2Proof.Machine
end

