-- ==== Sys2Proof/Laws/State.lean ====
section
/-! SUPPORT. One lemma per field per named update of `State`, and the read and write laws of register groups. -/

namespace Sys2Proof.Machine

/-! ### `emit` -/

@[simp] theorem emit_mixer (c : Byte) (v : Word) (s : State) :
    (emit c v s).mixer = s.mixer := rfl
@[simp] theorem emit_h (c : Byte) (v : Word) (s : State) :
    (emit c v s).h = s.h := rfl
@[simp] theorem emit_b (c : Byte) (v : Word) (s : State) :
    (emit c v s).b = s.b := rfl
@[simp] theorem emit_p (c : Byte) (v : Word) (s : State) :
    (emit c v s).p = s.p := rfl
@[simp] theorem emit_q (c : Byte) (v : Word) (s : State) :
    (emit c v s).q = s.q := rfl
@[simp] theorem emit_status (c : Byte) (v : Word) (s : State) :
    (emit c v s).status = s.status := rfl
@[simp] theorem emit_inReset (c : Byte) (v : Word) (s : State) :
    (emit c v s).inReset = s.inReset := rfl
@[simp] theorem emit_pending (c : Byte) (v : Word) (s : State) :
    (emit c v s).pending = s.pending := rfl
@[simp] theorem emit_responses (c : Byte) (v : Word) (s : State) :
    (emit c v s).responses = s.responses ++ [packResponse c v] := rfl

/-! ### `respond` -/

@[simp] theorem respond_mixer (v : Word) (s : State) :
    (respond v s).mixer = s.mixer := rfl
@[simp] theorem respond_h (v : Word) (s : State) :
    (respond v s).h = s.h := rfl
@[simp] theorem respond_b (v : Word) (s : State) :
    (respond v s).b = s.b := rfl
@[simp] theorem respond_p (v : Word) (s : State) :
    (respond v s).p = s.p := rfl
@[simp] theorem respond_q (v : Word) (s : State) :
    (respond v s).q = s.q := rfl
@[simp] theorem respond_status (v : Word) (s : State) :
    (respond v s).status = s.status := rfl
@[simp] theorem respond_inReset (v : Word) (s : State) :
    (respond v s).inReset = s.inReset := rfl
@[simp] theorem respond_pending (v : Word) (s : State) :
    (respond v s).pending = s.pending := rfl
@[simp] theorem respond_responses (v : Word) (s : State) :
    (respond v s).responses = s.responses ++ [packResponse codeOk v] := rfl

/-! ### `setSticky` -/

@[simp] theorem setSticky_mixer (f : CommandFault) (s : State) :
    (setSticky f s).mixer = s.mixer := rfl
@[simp] theorem setSticky_h (f : CommandFault) (s : State) :
    (setSticky f s).h = s.h := rfl
@[simp] theorem setSticky_b (f : CommandFault) (s : State) :
    (setSticky f s).b = s.b := rfl
@[simp] theorem setSticky_p (f : CommandFault) (s : State) :
    (setSticky f s).p = s.p := rfl
@[simp] theorem setSticky_q (f : CommandFault) (s : State) :
    (setSticky f s).q = s.q := rfl
@[simp] theorem setSticky_status (f : CommandFault) (s : State) :
    (setSticky f s).status = s.status ||| stickyBit f := rfl
@[simp] theorem setSticky_inReset (f : CommandFault) (s : State) :
    (setSticky f s).inReset = s.inReset := rfl
@[simp] theorem setSticky_pending (f : CommandFault) (s : State) :
    (setSticky f s).pending = s.pending := rfl
@[simp] theorem setSticky_responses (f : CommandFault) (s : State) :
    (setSticky f s).responses = s.responses := rfl

/-! ### `raiseFault` -/

@[simp] theorem raiseFault_mixer (f : CommandFault) (s : State) :
    (raiseFault f s).mixer = s.mixer := rfl
@[simp] theorem raiseFault_h (f : CommandFault) (s : State) :
    (raiseFault f s).h = s.h := rfl
@[simp] theorem raiseFault_b (f : CommandFault) (s : State) :
    (raiseFault f s).b = s.b := rfl
@[simp] theorem raiseFault_p (f : CommandFault) (s : State) :
    (raiseFault f s).p = s.p := rfl
@[simp] theorem raiseFault_q (f : CommandFault) (s : State) :
    (raiseFault f s).q = s.q := rfl
@[simp] theorem raiseFault_status (f : CommandFault) (s : State) :
    (raiseFault f s).status = s.status ||| stickyBit f := rfl
@[simp] theorem raiseFault_inReset (f : CommandFault) (s : State) :
    (raiseFault f s).inReset = s.inReset := rfl
@[simp] theorem raiseFault_pending (f : CommandFault) (s : State) :
    (raiseFault f s).pending = s.pending := rfl
@[simp] theorem raiseFault_responses (f : CommandFault) (s : State) :
    (raiseFault f s).responses = s.responses ++ [packResponse (faultCode f) 0#64] := rfl

/-! ### `assertReset` -/

@[simp] theorem assertReset_mixer (s : State) :
    (assertReset s).mixer = s.mixer := rfl
@[simp] theorem assertReset_h (s : State) :
    (assertReset s).h = s.h := rfl
@[simp] theorem assertReset_b (s : State) :
    (assertReset s).b = s.b := rfl
@[simp] theorem assertReset_p (s : State) :
    (assertReset s).p = s.p := rfl
@[simp] theorem assertReset_q (s : State) :
    (assertReset s).q = s.q := rfl
@[simp] theorem assertReset_status (s : State) :
    (assertReset s).status = s.status := rfl
@[simp] theorem assertReset_inReset (s : State) :
    (assertReset s).inReset = true := rfl
@[simp] theorem assertReset_pending (s : State) :
    (assertReset s).pending = s.pending := rfl
@[simp] theorem assertReset_responses (s : State) :
    (assertReset s).responses = s.responses := rfl

/-! ### `presentWord` -/

@[simp] theorem presentWord_mixer (cw : CommandWord) (s : State) :
    (presentWord cw s).mixer = s.mixer := rfl
@[simp] theorem presentWord_h (cw : CommandWord) (s : State) :
    (presentWord cw s).h = s.h := rfl
@[simp] theorem presentWord_b (cw : CommandWord) (s : State) :
    (presentWord cw s).b = s.b := rfl
@[simp] theorem presentWord_p (cw : CommandWord) (s : State) :
    (presentWord cw s).p = s.p := rfl
@[simp] theorem presentWord_q (cw : CommandWord) (s : State) :
    (presentWord cw s).q = s.q := rfl
@[simp] theorem presentWord_status (cw : CommandWord) (s : State) :
    (presentWord cw s).status = s.status := rfl
@[simp] theorem presentWord_inReset (cw : CommandWord) (s : State) :
    (presentWord cw s).inReset = false := rfl
@[simp] theorem presentWord_pending (cw : CommandWord) (s : State) :
    (presentWord cw s).pending = .command cw :: s.pending := rfl
@[simp] theorem presentWord_responses (cw : CommandWord) (s : State) :
    (presentWord cw s).responses = s.responses := rfl

/-! ### `writeReg` leaves the ports and `STATUS` alone -/

@[simp] theorem writeReg_status (r : Reg) (d : Word) (s : State) :
    (writeReg r d s).status = s.status := by cases r <;> rfl
@[simp] theorem writeReg_inReset (r : Reg) (d : Word) (s : State) :
    (writeReg r d s).inReset = s.inReset := by cases r <;> rfl
@[simp] theorem writeReg_pending (r : Reg) (d : Word) (s : State) :
    (writeReg r d s).pending = s.pending := by cases r <;> rfl
@[simp] theorem writeReg_responses (r : Reg) (d : Word) (s : State) :
    (writeReg r d s).responses = s.responses := by cases r <;> rfl

/-! ### Register groups -/

@[simp] theorem Lanes.get_set_same (v : Lanes) (k : Lane) (x : Word) : (v.set k x).get k = x := by
  match k with
  | 0 | 1 | 2 | 3 => rfl

theorem Lanes.get_set_ne (v : Lanes) {j k : Lane} (x : Word) (h : j ≠ k) : (v.set k x).get j = v.get j := by
  match j, k with
  | 0, 0 | 1, 1 | 2, 2 | 3, 3 => exact absurd rfl h
  | 0, 1 | 0, 2 | 0, 3 | 1, 0 | 1, 2 | 1, 3 | 2, 0 | 2, 1 | 2, 3 | 3, 0 | 3, 1 | 3, 2 => rfl

/-- Two groups that agree at every position are equal. -/
theorem Lanes.ext_get {v w : Lanes} (h : ∀ k, v.get k = w.get k) : v = w := by
  cases v; cases w
  have h0 := h 0
  have h1 := h 1
  have h2 := h 2
  have h3 := h 3
  simp only [Lanes.get] at h0 h1 h2 h3
  simp only [h0, h1, h2, h3]

theorem Lanes.set_get_self (v : Lanes) (k : Lane) : v.set k (v.get k) = v := by
  match k with
  | 0 | 1 | 2 | 3 => rfl

theorem Lanes.set_set (v : Lanes) (k : Lane) (x y : Word) : (v.set k x).set k y = v.set k y := by
  match k with
  | 0 | 1 | 2 | 3 => rfl

/-! ### Registers by name -/

theorem readReg_writeReg_same {r : Reg} (d : Word) (s : State) (h : r.writable = true) :
    readReg r (writeReg r d s) = d := by
  cases r <;> simp_all [readReg, writeReg, Reg.writable]

theorem readReg_writeReg_ne {r r' : Reg} (d : Word) (s : State) (h : r' ≠ r) :
    readReg r' (writeReg r d s) = readReg r' s := by
  cases r <;> cases r' <;> simp_all [readReg, writeReg, Lanes.get_set_ne]

/-- A register other than `STATUS` reads the same in states that agree on the five groups. -/
theorem readReg_congr {s t : State} {r : Reg} (hr : r ≠ .status) (hm : t.mixer = s.mixer) (hh : t.h = s.h)
    (hb : t.b = s.b) (hp : t.p = s.p) (hq : t.q = s.q) : readReg r t = readReg r s := by
  cases r <;> simp_all [readReg]

/-- A response added does not change a register. -/
@[simp] theorem readReg_respond (r : Reg) (v : Word) (s : State) : readReg r (respond v s) = readReg r s := by
  cases r <;> rfl

end Sys2Proof.Machine
end

