-- ==== Sys2Proof/Laws/Ops.lean ====
section
/-! SUPPORT. One specification lemma per shared operation, and what `exec` and `step` can do, said once. -/

namespace Sys2Proof.Machine

/-! ### Response words -/

@[simp] theorem responseCode_packResponse (c : Byte) (v : Word) : responseCode (packResponse c v) = c := by
  unfold responseCode packResponse
  rw [BitVec.extractLsb'_append_eq_of_le (by decide)]
  exact BitVec.extractLsb'_eq_self

@[simp] theorem responseValue_packResponse (c : Byte) (v : Word) : responseValue (packResponse c v) = v := by
  unfold responseValue packResponse
  rw [BitVec.extractLsb'_append_eq_of_add_le (by decide)]
  exact BitVec.extractLsb'_eq_self

/-- Every word a command without a fault answers is legal. -/
theorem legalResponse_ok (v : Word) : legalResponse (packResponse codeOk v) := Or.inl (by simp)

/-- Every word a fault answers is legal. -/
theorem legalResponse_fault (f : CommandFault) : legalResponse (packResponse (faultCode f) 0#64) := by
  cases f <;> exact Or.inr (by simp)

/-! ### `STATUS` -/

/-- A sticky bit is not a reserved bit. -/
theorem stickyBit_shift (f : CommandFault) : stickyBit f >>> 2 = 0#64 := by cases f <;> decide

/-! ### The mixer, one step after another -/

@[simp] theorem mixOutputs_length (xs : List Word) (m : Mixer) : (mixOutputs xs m).length = xs.length := by
  induction xs generalizing m with
  | nil => rfl
  | cons x xs ih => simp [mixOutputs, ih]

theorem mixOutputs_append (xs ys : List Word) (m : Mixer) :
    mixOutputs (xs ++ ys) m = mixOutputs xs m ++ mixOutputs ys (mixStates xs m) := by
  induction xs generalizing m with
  | nil => rfl
  | cons x xs ih => simp [mixOutputs, mixStates, ih]

theorem mixStates_append (xs ys : List Word) (m : Mixer) :
    mixStates (xs ++ ys) m = mixStates ys (mixStates xs m) := by
  induction xs generalizing m with
  | nil => rfl
  | cons x xs ih => exact ih _

/-- `S0` only ever takes the XOR of the shifted inputs. -/
theorem mixStates_s0 (xs : List Word) (m : Mixer) :
    (mixStates xs m).s0 = xs.foldl (fun (a : Word) (x : Word) => a ^^^ (x <<< Config.shIn)) m.s0 := by
  induction xs generalizing m with
  | nil => rfl
  | cons x xs ih => exact ih _

@[simp] theorem wideBytes_length (d : Word) (n : Nat) : (wideBytes d n).length = n := by simp [wideBytes]

/-- The Block Hasher written with a running XOR carried along: the form of 41_block_hasher.md R121. -/
theorem foldl_mix (xs : List Word) (a : Word) (m : Mixer) :
    xs.foldl (fun (acc : Word × Mixer) x => (acc.1 ^^^ (mix x acc.2).1, (mix x acc.2).2)) (a, m) =
      ((mixOutputs xs m).foldl (· ^^^ ·) a, mixStates xs m) := by
  induction xs generalizing a m with
  | nil => rfl
  | cons x xs ih => exact ih _ _

/-! ### Byte lanes -/

/-- A lane of a widened value is the shifted and masked value. -/
theorem shift_and_eq_zextByte (d : Word) (i : Nat) : (d >>> (8 * i)) &&& 0xff#64 = zextByte (byteOf d i) := by
  unfold zextByte byteOf
  apply BitVec.eq_of_getLsbD_eq
  intro j hj
  have key : ∀ j < 64, (0xff#64).getLsbD j = decide (j < 8) := by decide
  rw [BitVec.getLsbD_and, key j hj]
  simp [BitVec.getLsbD_extractLsb', hj, Bool.and_comm]

/-- What `keep` keeps, lane by lane. -/
theorem byteOf_keep (d : Word) {n i : Nat} (hi : i < 8) :
    byteOf (keep d n) i = if i < n then byteOf d i else 0#8 := by
  unfold byteOf keep
  apply BitVec.eq_of_getLsbD_eq
  intro j hj
  have h64 : 8 * i + j < 64 := by omega
  simp only [BitVec.getLsbD_extractLsb', BitVec.getLsbD_ofNat, Nat.testBit_mod_two_pow, h64]
  split
  · have : 8 * i + j < 8 * n := by omega
    simp [this, hj, BitVec.testBit_toNat]
  · have : ¬ 8 * i + j < 8 * n := by omega
    simp [this]

/-! ### The bit count -/

theorem popcount_le (a : Word) : popcount a ≤ 64 := List.countP_le_length.trans (by simp)

theorem popcount_eq_zero (a : Word) : popcount a = 0 ↔ a = 0#64 := by
  unfold popcount
  rw [List.countP_eq_zero]
  constructor
  · intro h
    apply BitVec.eq_of_getLsbD_eq
    intro i hi
    simpa using h i (by simpa using hi)
  · rintro rfl; simp

theorem popcount_eq_full (a : Word) : popcount a = 64 ↔ ∀ i < 64, a.getLsbD i = true := by
  unfold popcount
  have h : (64 : Nat) = (List.range 64).length := by simp
  conv_lhs => rhs; rw [h]
  rw [List.countP_eq_length]
  simp

/-! ### The block computation -/

/-- `H[k]` takes call `k` of the forward pass and call `k` of the second pass, which is on sub-block `3 - k`. -/
theorem accumulate_get (h : Lanes) (x : BlockHashes) (k : Lane) :
    (accumulate h x).get k = h.get k ^^^ x.f.get k ^^^ x.r.get (3 - k) := by
  match k with
  | 0 | 1 | 2 | 3 => rfl

/-! ### What a command can do -/

/-- A legal command responds `OK`; it writes no port but the response, and no `STATUS`. -/
theorem exec_of_wf {i : Instr} (hw : i.wf = true) (s : State) :
    ∃ v m h b p q, exec i s = .next (respond v { s with mixer := m, h := h, b := b, p := p, q := q }) := by
  cases i with
  | rdr r => exact ⟨_, s.mixer, s.h, s.b, s.p, s.q, rfl⟩
  | wrr r d =>
    cases r with
    | status => cases hw
    | s0 => exact ⟨0#64, ⟨d, s.mixer.s1⟩, s.h, s.b, s.p, s.q, rfl⟩
    | s1 => exact ⟨0#64, ⟨s.mixer.s0, d⟩, s.h, s.b, s.p, s.q, rfl⟩
    | h k => exact ⟨0#64, s.mixer, s.h.set k d, s.b, s.p, s.q, rfl⟩
    | b k => exact ⟨0#64, s.mixer, s.h, s.b.set k d, s.p, s.q, rfl⟩
    | p k => exact ⟨0#64, s.mixer, s.h, s.b, s.p.set k d, s.q, rfl⟩
    | q k => exact ⟨0#64, s.mixer, s.h, s.b, s.p, s.q.set k d, rfl⟩
  | seed => exact ⟨0#64, Mixer.seeded, s.h, s.b, s.p, s.q, rfl⟩
  | mix d => exact ⟨_, (mix d s.mixer).2, s.h, s.b, s.p, s.q, rfl⟩
  | hashb n d =>
    have hn : countOk n = true := hw
    exact ⟨(hashBlock d n s.mixer).1, (hashBlock d n s.mixer).2, s.h, s.b, s.p, s.q,
      by simp only [exec, execHashb, hn, if_true]⟩
  | dinit => exact ⟨0#64, Mixer.seeded, Lanes.zero, s.b, s.p, s.q, rfl⟩
  | ldb k n d =>
    have hn : countOk n = true := hw
    exact ⟨0#64, s.mixer, s.h, s.b.set k (keep d n), s.p, s.q, by simp only [exec, execLdb, hn, if_true]⟩
  | dblk =>
    exact ⟨0#64, (blockHashes s.b s.mixer).mixer, accumulate s.h (blockHashes s.b s.mixer), s.b, s.p, s.q, rfl⟩
  | xacc k d => exact ⟨0#64, s.mixer, s.h.set k (s.h.get k ^^^ d), s.b, s.p, s.q, rfl⟩
  | hamd => exact ⟨_, s.mixer, s.h, s.b, s.p, s.q, rfl⟩

/-- A term that is no legal command takes the fault. -/
theorem exec_of_not_wf {i : Instr} (hw : i.wf = false) (s : State) :
    exec i s = .next (raiseFault .illegalOperand s) := by
  cases i with
  | wrr r d => cases r <;> first | rfl | cases hw
  | hashb n d =>
    have hn : countOk n = false := hw
    simp only [exec, execHashb, hn, Bool.false_eq_true, if_false]
  | ldb k n d =>
    have hn : countOk n = false := hw
    simp only [exec, execLdb, hn, Bool.false_eq_true, if_false]
  | _ => cases hw

/-- Every command ends in a next state: either it responds `OK`, having written no port and no `STATUS`, or it takes
the fault `ILLEGAL_OPERAND`. -/
theorem exec_cases (i : Instr) (s : State) :
    (∃ v m h b p q, exec i s = .next (respond v { s with mixer := m, h := h, b := b, p := p, q := q })) ∨
      exec i s = .next (raiseFault .illegalOperand s) := by
  cases hw : i.wf
  · exact .inr (exec_of_not_wf hw s)
  · exact .inl (exec_of_wf hw s)

/-- Every command word ends in a next state: `OK` as in `exec_cases`, or one of the two faults. -/
theorem runWord_cases (cw : CommandWord) (s : State) :
    (∃ v m h b p q, runWord cw s = .next (respond v { s with mixer := m, h := h, b := b, p := p, q := q })) ∨
      ∃ f, runWord cw s = .next (raiseFault f s) := by
  unfold runWord
  split
  · rename_i i _
    exact (exec_cases i s).imp id fun h => ⟨_, h⟩
  · exact .inr ⟨_, rfl⟩

/-- Everything a step that answers a next state can have done. -/
theorem step_cases {s t : State} (h : step s = .next t) :
    (s.pending = [] ∧ t = s) ∨
    (∃ rest, s.pending = .assertReset :: rest ∧ t = assertReset { s with pending := rest }) ∨
    (∃ rest, s.pending = .releaseReset :: rest ∧ t = releaseReset { s with pending := rest }) ∨
    (∃ cw rest, s.pending = .command cw :: rest ∧ s.inReset = false ∧
      runWord cw { s with pending := rest } = .next t) := by
  unfold step takeInput at h
  cases hp : s.pending with
  | nil => rw [hp] at h; cases h; exact .inl ⟨rfl, rfl⟩
  | cons x rest =>
    rw [hp] at h
    cases x with
    | assertReset => cases h; exact .inr (.inl ⟨rest, rfl, rfl⟩)
    | releaseReset => cases h; exact .inr (.inr (.inl ⟨rest, rfl, rfl⟩))
    | command cw =>
      cases hr : s.inReset with
      | true => simp [performInput, hr] at h
      | false =>
        simp only [performInput, hr, Bool.false_eq_true, if_false] at h
        exact .inr (.inr (.inr ⟨cw, rest, rfl, rfl, h⟩))

/-- The step that takes a command word is the word's own effect on the state without it. -/
theorem step_command (s : State) (cw : CommandWord) (hr : s.inReset = false) :
    step { s with pending := .command cw :: s.pending } = runWord cw s := by
  simp only [step, takeInput, performInput, hr, Bool.false_eq_true, if_false]
  rw [← hr]

end Sys2Proof.Machine
end

