-- ==== Sys2Proof/Laws/PerInstr.lean ====
section
/-! SUPPORT. Statements about every command term: the fields its word carries. -/

namespace Sys2Proof.Laws.EncodedFields

/-- The word of a command has the command's opcode in `op` and zeros in every must-be-zero field (R71, R73). -/
def Statement (i : Instr) : Prop := opField (encode i) = i.opcode ∧ zerosOk (encode i) = true

theorem rdr (r : Reg) : Statement (.rdr r) := by simp [Statement, encode, Instr.opcode]
theorem wrr (r : Reg) (d : Word) : Statement (.wrr r d) := by simp [Statement, encode, Instr.opcode]
theorem seed : Statement .seed := by simp [Statement, encode, Instr.opcode]
theorem mix (d : Word) : Statement (.mix d) := by simp [Statement, encode, Instr.opcode]
theorem hashb (n : Nat) (d : Word) : Statement (.hashb n d) := by simp [Statement, encode, Instr.opcode]
theorem dinit : Statement .dinit := by simp [Statement, encode, Instr.opcode]
theorem ldb (k : Lane) (n : Nat) (d : Word) : Statement (.ldb k n d) := by simp [Statement, encode, Instr.opcode]
theorem dblk : Statement .dblk := by simp [Statement, encode, Instr.opcode]
theorem xacc (k : Lane) (d : Word) : Statement (.xacc k d) := by simp [Statement, encode, Instr.opcode]
theorem hamd : Statement .hamd := by simp [Statement, encode, Instr.opcode]

end Sys2Proof.Laws.EncodedFields
end

