-- ==== Sys2Proof/Laws/Run.lean ====
section
/-! SUPPORT. A run over command words as a fold: since every command ends in a next state and reads no port, running a
list of words is applying their effects one after another. -/

namespace Sys2Proof.Machine

/-- The next state a command ends in. -/
def commandEffect (i : Instr) (s : State) : State :=
  match exec i s with
  | .next t => t
  | .fault _ => s
  | .refused _ => s

/-- The next state a command word ends in. -/
def wordEffect (cw : CommandWord) (s : State) : State :=
  match decode cw with
  | .ok i => commandEffect i s
  | .error f => raiseFault f s

theorem exec_eq_effect (i : Instr) (s : State) : exec i s = .next (commandEffect i s) := by
  rcases exec_cases i s with ⟨v, m, h, b, p, q, e⟩ | e <;> simp only [commandEffect, e]

theorem runWord_eq_effect (cw : CommandWord) (s : State) : runWord cw s = .next (wordEffect cw s) := by
  unfold runWord wordEffect
  cases decode cw with
  | ok i => exact exec_eq_effect i s
  | error f => rfl

theorem commandEffect_ports (i : Instr) (s : State) :
    (commandEffect i s).pending = s.pending ∧ (commandEffect i s).inReset = s.inReset := by
  rcases exec_cases i s with ⟨v, m, h, b, p, q, e⟩ | e <;> simp only [commandEffect, e] <;> exact ⟨rfl, rfl⟩

theorem wordEffect_ports (cw : CommandWord) (s : State) :
    (wordEffect cw s).pending = s.pending ∧ (wordEffect cw s).inReset = s.inReset := by
  unfold wordEffect
  cases decode cw with
  | ok i => exact commandEffect_ports i s
  | error f => exact ⟨rfl, rfl⟩

/-- A command does the same whatever else the host has presented. -/
theorem commandEffect_pending (i : Instr) (s : State) (ins : List HostInput) :
    commandEffect i { s with pending := ins } = { commandEffect i s with pending := ins } := by
  cases i with
  | wrr r d => cases r <;> rfl
  | hashb n d => simp only [commandEffect, exec, execHashb]; cases countOk n <;> rfl
  | ldb k n d => simp only [commandEffect, exec, execLdb]; cases countOk n <;> rfl
  | rdr r => cases r <;> rfl
  | _ => rfl

theorem wordEffect_pending (cw : CommandWord) (s : State) (ins : List HostInput) :
    wordEffect cw { s with pending := ins } = { wordEffect cw s with pending := ins } := by
  unfold wordEffect
  cases decode cw with
  | ok i => exact commandEffect_pending i s ins
  | error f => rfl

theorem core_run_next {M : Host.Core} {k : Nat} {s t : M.State} (h : M.step s = .next t) :
    M.run (k + 1) s = M.run k t := by rw [Host.Core.run, h]

theorem core_run_fault {M : Host.Core} {k : Nat} {s : M.State} {r : M.Fault} (h : M.step s = .fault r) :
    M.run (k + 1) s = .fault r := by rw [Host.Core.run, h]

theorem core_run_refused {M : Host.Core} {k : Nat} {s : M.State} {r : M.Refusal} (h : M.step s = .refused r) :
    M.run (k + 1) s = .refused r := by rw [Host.Core.run, h]

/-- `runSteps` is the host's `run` of this machine. -/
theorem runSteps_eq_core_run (k : Nat) (s : State) : runSteps k s = Host.Core.run core k s := by
  induction k generalizing s with
  | zero => rfl
  | succ k ih =>
    cases h : step s with
    | next t => simp only [runSteps, h]; exact (ih t).trans (core_run_next (M := core) h).symm
    | fault r => simp only [runSteps, h]; exact (core_run_fault (M := core) h).symm
    | refused r => simp only [runSteps, h]; exact (core_run_refused (M := core) h).symm

/-- The words that follow are presented by one step over the first. -/
theorem step_presentWords (cw : CommandWord) (ws : List CommandWord) (s : State) (hs : s.inReset = false) :
    step (presentWords (cw :: ws) s) = .next (presentWords ws (wordEffect cw s)) := by
  have h := step_command (presentWords ws s) cw hs
  rw [runWord_eq_effect] at h
  have hp : wordEffect cw (presentWords ws s) = presentWords ws (wordEffect cw s) := by
    unfold presentWords
    rw [wordEffect_pending, (wordEffect_ports cw s).1]
  rw [hp] at h
  exact h

/-- A run over the words `ws` is their effects in order. -/
theorem run_presentWords (ws : List CommandWord) (s : State) (hs : s.inReset = false) :
    runSteps ws.length (presentWords ws s) = .next (ws.foldl (fun t cw => wordEffect cw t) s) := by
  induction ws generalizing s with
  | nil => rfl
  | cons cw ws ih =>
    rw [List.length_cons, runSteps, step_presentWords cw ws s hs]
    exact ih _ ((wordEffect_ports cw s).2.trans hs)

/-- A sequence of commands leaves the ports' input side alone. -/
theorem foldl_wordEffect_ports (ws : List CommandWord) (s : State) :
    (ws.foldl (fun t cw => wordEffect cw t) s).pending = s.pending ∧
      (ws.foldl (fun t cw => wordEffect cw t) s).inReset = s.inReset := by
  induction ws generalizing s with
  | nil => exact ⟨rfl, rfl⟩
  | cons cw ws ih =>
    have h := ih (wordEffect cw s)
    exact ⟨h.1.trans (wordEffect_ports cw s).1, h.2.trans (wordEffect_ports cw s).2⟩

/-- What the host gets back for the commands `is`: the responses added, and the state their words leave. -/
theorem exchange_eq (is : List Instr) (s : State) (hs : s.inReset = false) :
    exchange is s =
      some (((is.map encode).foldl (fun t cw => wordEffect cw t) s).responses.drop s.responses.length,
        (is.map encode).foldl (fun t cw => wordEffect cw t) s) := by
  have h := run_presentWords (is.map encode) s hs
  have hp : presentWords (is.map encode) s = { s with pending := commandInputs is ++ s.pending } := by
    simp [presentWords, commandInputs, Function.comp_def]
  rw [hp, List.length_map] at h
  simp only [exchange, h]

end Sys2Proof.Machine
end

