-- ==== Sys2Proof/Tests/Slice0.lean ====
section
/-! SUPPORT. The model's own tests, on values written out in the spec, and for every statement with hypotheses a
witness that meets them. -/

namespace Sys2Proof.Tests

open Sys2Proof Sys2Proof.Machine

/-! ### Helpers -/

/-- The next state of an outcome, if it is one. -/
def nextOf (o : Host.Outcome State Fault Refusal) : Option State :=
  match o with
  | .next t => some t
  | .fault _ => none
  | .refused _ => none

/-- What a test looks at after the word `cw`: the responses and one register. -/
def sees (cw : CommandWord) (r : Reg) (s : State) : Option (List ResponseWord × Word) :=
  (nextOf (step (presentWord cw s))).map fun t => (t.responses, readReg r t)

/-- A core whose registers all hold different values. -/
def sample : State :=
  { State.reset with
    mixer := ⟨0x1#64, 0x2#64⟩
    h := ⟨0x3#64, 0x4#64, 0x5#64, 0x6#64⟩
    b := ⟨0x7#64, 0x8#64, 0x9#64, 0xa#64⟩
    p := ⟨0xb#64, 0xc#64, 0xd#64, 0xe#64⟩
    q := ⟨0xf#64, 0x10#64, 0x11#64, 0x12#64⟩
    status := 0x3#64 }

/-! ### WellFormed refuses (30_encoding.md R77) -/

theorem test_wf_wrr_status : Instr.wf (.wrr .status 0#64) = false := by decide
theorem test_wf_hashb_nine : Instr.wf (.hashb 9 0#64) = false := by decide
theorem test_wf_ldb_nine : Instr.wf (.ldb 3 9 0#64) = false := by decide
theorem test_wf_counts_zero_and_eight :
    Instr.wf (.hashb 0 0#64) = true ∧ Instr.wf (.hashb 8 0#64) = true ∧ Instr.wf (.ldb 0 8 0#64) = true := by decide
theorem test_wf_wrr_q3 : Instr.wf (.wrr (.q 3) 0#64) = true := by decide

/-! ### Decoding: words put together field by field from R71 and R76, and words of 95_test_vectors.md -/

/-- `op z1 r z2 len z3 data`, each written in its own width. -/
def wordOf (op : BitVec 8) (z1 : BitVec 3) (r : BitVec 5) (z2 len : BitVec 4) (z3 : BitVec 8) (data : Word) :
    CommandWord := op ++ z1 ++ r ++ z2 ++ len ++ z3 ++ data

theorem test_decode_rdr_h3 :
    decode (wordOf 0b00000001#8 0b000#3 0b00111#5 0b0000#4 0b0000#4 0b00000000#8 0#64) = .ok (.rdr (.h 3)) := by decide
theorem test_decode_wrr_q1 :
    decode (wordOf 0b00000010#8 0b000#3 0b10101#5 0b0000#4 0b0000#4 0b00000000#8 0x0123456789abcdef#64) =
      .ok (.wrr (.q 1) 0x0123456789abcdef#64) := by decide
theorem test_decode_seed :
    decode (wordOf 0b00010000#8 0b000#3 0b00000#5 0b0000#4 0b0000#4 0b00000000#8 0#64) = .ok .seed := by decide
theorem test_decode_mix :
    decode (wordOf 0b00010001#8 0b000#3 0b00000#5 0b0000#4 0b0000#4 0b00000000#8 0x8000000000000001#64) =
      .ok (.mix 0x8000000000000001#64) := by decide
theorem test_decode_hashb :
    decode (wordOf 0b00100000#8 0b000#3 0b00000#5 0b0000#4 0b1000#4 0b00000000#8 0xff#64) = .ok (.hashb 8 0xff#64) := by
  decide
theorem test_decode_dinit :
    decode (wordOf 0b00110000#8 0b000#3 0b00000#5 0b0000#4 0b0000#4 0b00000000#8 0#64) = .ok .dinit := by decide
theorem test_decode_ldb :
    decode (wordOf 0b00110001#8 0b000#3 0b00011#5 0b0000#4 0b0101#4 0b00000000#8 0x77#64) = .ok (.ldb 3 5 0x77#64) := by
  decide
theorem test_decode_dblk :
    decode (wordOf 0b00110010#8 0b000#3 0b00000#5 0b0000#4 0b0000#4 0b00000000#8 0#64) = .ok .dblk := by decide
theorem test_decode_xacc :
    decode (wordOf 0b00110011#8 0b000#3 0b00010#5 0b0000#4 0b0000#4 0b00000000#8 0xff#64) = .ok (.xacc 2 0xff#64) := by
  decide
theorem test_decode_hamd :
    decode (wordOf 0b01000000#8 0b000#3 0b00000#5 0b0000#4 0b0000#4 0b00000000#8 0#64) = .ok .hamd := by decide

/-- 95_test_vectors.md 2.6: the words of unassigned opcodes. -/
theorem test_illegal_opcode :
    ([0x000000000000000000000000#96, 0xffffffffffffffffffffffff#96, 0x030000000000000000000000#96,
      0x120000000000000000000000#96, 0x210000000000000000000000#96, 0x340000000000000000000000#96,
      0x410000000000000000000000#96, 0x00e0f0ff0000000000000000#96, 0xffe000000000000000000000#96]).all (fun cw => decide (decode cw = .error .illegalOpcode)) = true := by decide

/-- 95_test_vectors.md 2.1-5, 2.2-15, 2.3, 2.4, 2.5-3, 2.6: one bad field each. -/
theorem test_illegal_operand :
    ([0x112000000000000000000000#96, 0x110010000000000000000000#96, 0x110000010000000000000000#96,
      0x110000800000000000000000#96, 0x20001f010000000000000000#96, 0x311f00000000000000000000#96,
      0x021800000000000000000000#96, 0x011900000000000000000000#96, 0x110100000000000000000000#96,
      0x110001000000000000000000#96, 0x100000000000000000000001#96, 0x200009000000000000000001#96,
      0x20000f000000000000000000#96, 0x200100000000000000000000#96, 0x310400000000000000000000#96] ++
      [0x310009000000000000000000#96, 0x312000000000000000000000#96, 0x330400000000000000000000#96,
      0x330001000000000000000000#96, 0x320000000000000000000001#96, 0x320100000000000000000000#96,
      0x300008000000000000000000#96, 0x400000000000000000000001#96, 0x400100000000000000000000#96,
      0x400001000000000000000000#96, 0x010200000000000000000000#96, 0x010f00000000000000000000#96,
      0x011f00000000000000000000#96, 0x010000000000000000000001#96, 0x020001000000000000000000#96]).all (fun cw => decide (decode cw = .error .illegalOperand)) = true := by decide

/-- The opcode table's numbering, and the fetch the host uses. -/
theorem test_decodeTableWord : decodeTableWord 96 0x3302000000000000000000ff = some (.xacc 2 0xff#64) := by decide
theorem test_withFetchWord :
    step (State.reset.withFetchWord 96 0x110000000000000000000001) = exec (.mix 1#64) State.reset := by rfl

/-! ### Reset, idle, and a word during reset (10_state.md R33, 70_reset_and_hazards.md R230) -/

theorem test_reset_registers :
    readReg .s0 State.reset = 0x5555555555555555#64 ∧ readReg .s1 State.reset = 0xaaaaaaaaaaaaaaaa#64 ∧
      readReg .status State.reset = 0#64 ∧ readReg (.q 3) State.reset = 0#64 := by decide
theorem test_reset_clears_status :
    (nextOf (runSteps 2 { sample with pending := [.assertReset, .releaseReset] })).map State.status = some 0#64 := by
  decide
theorem test_word_during_reset :
    step { State.reset with inReset := true, pending := [.command 0#96] } = .refused .wordDuringReset := by rfl

/-! ### The Bit Mixer (95_test_vectors.md 2.1) -/

theorem test_seed : sees 0x100000000000000000000000#96 .s1 sample =
    some ([packResponse 0#8 0#64], 0xaaaaaaaaaaaaaaaa#64) := by decide
/-- 2.1-2, worked by hand in the spec. -/
theorem test_mix_zero_from_seed : sees 0x110000000000000000000000#96 .s1 State.reset =
    some ([packResponse 0#8 0xffffffffffffffff#64], 0xa8003fffffaaaabf#64) := by decide
/-- 2.1-3, steps 2 and 3. -/
theorem test_mix_one : mix 0x1#64 ⟨0x5555555555555555#64, 0xa8003fffffaaaabf#64⟩ =
    (0xfd55955555000014#64, ⟨0x5555555515555555#64, 0x000000aaa57ffd4a#64⟩) := by decide
theorem test_mix_ff : mix 0xff#64 ⟨0x5555555515555555#64, 0x000000aaa57ffd4a#64⟩ =
    (0x555555ffbad5529f#64, ⟨0x5555556ad5555555#64, 0x02ad55ff125502aa#64⟩) := by decide
/-- 2.1-4: the sum wraps, the top input bits fall off, the right shift is logical. -/
theorem test_mix_wrap : mix 0x0000000600000000#64 ⟨0x8000000000000000#64, 0x8000000000000000#64⟩ =
    (0#64, ⟨0#64, 0x0400200000000000#64⟩) := by decide

/-! ### The Block Hasher (95_test_vectors.md 2.2) -/

/-- 2.2-4 and 2.2-11: lanes at and above `len` are ignored. -/
theorem test_hashb_two : sees 0x20000200deadbeefcafe6261#96 .s1 State.reset =
    some ([packResponse 0#8 0x33be90f13f82da0b#64], 0x22b99dd0a3754d81#64) := by decide +kernel
/-- 2.2-8. -/
theorem test_hashb_eight : sees 0x2000080077202c6f6c6c6568#96 .s1 State.reset =
    some ([packResponse 0#8 0x536080706d582e58#64], 0x52f58f7f955ab733#64) := by decide +kernel

/-! ### The Digest Accumulator (95_test_vectors.md 2.3) -/

/-- 2.3-1. -/
theorem test_dinit : (nextOf (exec .dinit sample)).map (fun t => (t.mixer, t.h, t.b.l0, t.p.l0, t.status)) =
    some (⟨0x5555555555555555#64, 0xaaaaaaaaaaaaaaaa#64⟩, ⟨0#64, 0#64, 0#64, 0#64⟩, 0x7#64, 0xb#64, 0x3#64) := by decide
/-- 2.3-2. -/
theorem test_ldb_six : sees 0x3101060000003120646c726f#96 (.b 1) sample =
    some ([packResponse 0#8 0#64], 0x00003120646c726f#64) := by decide
theorem test_ldb_none : sees 0x31020000ffffffffffffffff#96 (.b 2) sample = some ([packResponse 0#8 0#64], 0#64) := by
  decide
/-- 2.3-3. -/
theorem test_xacc : sees 0x3302000000000000000000ff#96 (.h 2) { State.reset with h := ⟨0#64, 0#64, 0xf0f#64, 0#64⟩ } =
    some ([packResponse 0#8 0#64], 0xff0#64) := by decide
/-- 2.3-4, the block of `hello, world 1`, after `DINIT`. -/
theorem test_dblk : (nextOf (exec .dblk { State.reset with
      b := ⟨0x77202c6f6c6c6568#64, 0x00003120646c726f#64, 0#64, 0#64⟩ })).map (fun t => (t.mixer, t.h)) =
    some (⟨0x5555555555555555#64, 0x89dfb1243904de80#64⟩,
      ⟨0x54e190cc03fe108d#64, 0x7b5d64e360dfc32a#64, 0xf32dfa107a632f84#64, 0x8aee03e92a185418#64⟩) := by decide +kernel

/-! ### The Hamming Counter (95_test_vectors.md 2.4) -/

/-- 2.4-9. -/
theorem test_hamd : sees 0x400000000000000000000000#96 .s0 { State.reset with
      p := ⟨0x8aee03e92a185418#64, 0xf32dfa107a632f84#64, 0x7b5d64e360dfc32a#64, 0x54e190cc03fe108d#64⟩
      q := ⟨0x616c2e6ddeedffaa#64, 0x561b4d49b6f5bc02#64, 0x59e22faf67495143#64, 0x2d70ad775d347c89#64⟩ } =
    some ([packResponse 0#8 0x82#64], 0x5555555555555555#64) := by decide +kernel
/-- 2.4-6: 256 needs bit 8 of the result. -/
theorem test_hamd_full : hammingDistance
      ⟨0x5555555555555555#64, 0x5555555555555555#64, 0x5555555555555555#64, 0x5555555555555555#64⟩
      ⟨0xaaaaaaaaaaaaaaaa#64, 0xaaaaaaaaaaaaaaaa#64, 0xaaaaaaaaaaaaaaaa#64, 0xaaaaaaaaaaaaaaaa#64⟩ = 256 := by
  decide +kernel

/-! ### Register access and faults (95_test_vectors.md 2.5, 2.6) -/

theorem test_wrr_b2 : sees 0x020a00000a3d70a3d70a3d67#96 (.b 2) sample =
    some ([packResponse 0#8 0#64], 0x0a3d70a3d70a3d67#64) := by decide
theorem test_rdr_s1 : sees 0x010100000000000000000000#96 .s1 State.reset =
    some ([packResponse 0#8 0xaaaaaaaaaaaaaaaa#64], 0xaaaaaaaaaaaaaaaa#64) := by decide
theorem test_fault_opcode : sees 0x00e0f0ff0000000000000000#96 .status State.reset =
    some ([packResponse 0x01#8 0#64], 0x1#64) := by decide
theorem test_fault_operand : sees 0x021800000000000000000000#96 .status State.reset =
    some ([packResponse 0x02#8 0#64], 0x2#64) := by decide
theorem test_fault_sticky : (nextOf (exec (.wrr .status 0#64) { State.reset with status := 0x1#64 })).map State.status =
    some 0x3#64 := by decide

/-! ### The host contract (95_test_vectors.md 2.7) -/

/-- 2.7-1. -/
theorem test_numBlocks : [0, 1, 8, 31, 32, 33, 63, 64, 65, 96, 97, 1000].map numBlocks =
    [1, 1, 1, 1, 1, 2, 2, 2, 3, 3, 4, 32] := by decide
/-- 2.7-2. -/
theorem test_loadCommand : loadCommand
      [0x68#8, 0x65#8, 0x6c#8, 0x6c#8, 0x6f#8, 0x2c#8, 0x20#8, 0x77#8, 0x6f#8, 0x72#8, 0x6c#8, 0x64#8, 0x20#8, 0x31#8]
      0 1 = .ldb 1 6 0x3120646c726f#64 := by decide +kernel
/-- 2.7-3. -/
theorem test_render : render ⟨0x1#64, 0x2#64, 0xabc#64, 0xf000000000000000#64⟩ =
    "f0000000000000000000000000000abc00000000000000020000000000000001".toList := by decide +kernel
/-- 2.7-5, the last rows of the table in upper case, and a string that does not parse. -/
theorem test_parse : parse "8AEE03E92A185418F32DFA107A632F847B5D64E360DFC32A54E190CC03FE108D".toList =
    .ok ⟨0x8aee03e92a185418#64, 0xf32dfa107a632f84#64, 0x7b5d64e360dfc32a#64, 0x54e190cc03fe108d#64⟩ := by decide +kernel
theorem test_parse_malformed : parse "xyz".toList = .error .malformedDigest := by decide +kernel

/-! ### The assembler (30_encoding.md R82, R83, R85) -/

theorem test_assemble_ldb : assemble "LDB 1, 6, 0x3120646c726f ; second sub-block".toList =
    some (.ldb 1 6 0x3120646c726f#64) := by decide +kernel
theorem test_assemble_pseudo :
    assemble "LDBZ 3".toList = some (.ldb 3 0 0#64) ∧ assemble "RDH 2".toList = some (.rdr (.h 2)) ∧
      assemble "LDP 0, 0x1".toList = some (.wrr (.p 0) 1#64) ∧ assemble "WRR STATUS, 0x0".toList = none := by
  decide +kernel

/-! ### Witnesses: each meets every hypothesis of the statement it is named after, at the edges of its ranges -/

theorem witness_ReleasedReset : State.reset.inReset = false ∧ (assertReset sample).inReset = true := by decide
theorem witness_StepRunsTheDecodedCommand :
    sample.inReset = false ∧ decode 0x320000000000000000000000#96 = .ok .dblk ∧ State.reset.pending = [] := by decide
theorem witness_DecodeOfEncode : (Instr.hashb 8 0#64).wf = true ∧ (Instr.ldb 3 0 0#64).wf = true := by decide
theorem witness_EncodeOfDecode : decode 0x310308000000000000000000#96 = .ok (.ldb 3 8 0#64) := by decide
theorem witness_Legal : (⟨0x31#8, 0x310000000000000000000000#96, 0xFFFCF0FF0000000000000000#96⟩ : EncodingRow) ∈
    encodingTable ∧ extraCondition 0x31#8 0x310308000000000000000000#96 = true ∧
    extraCondition 0x31#8 0x310309000000000000000000#96 = false := by decide
theorem witness_NoWordFitsTwoRows : ∃ row ∈ encodingTable, ∃ row' ∈ encodingTable,
    0x310308000000000000000000#96 &&& row.mask = row.pattern ∧
      0x310308000000000000000000#96 &&& row'.mask = row'.pattern := by decide
theorem witness_RegisterIndexMap :
    (∀ x ∈ [0x02#5, 0x03#5, 0x0C#5, 0x0F#5, 0x19#5, 0x1F#5], regOfIndex x = none) ∧
      regOfIndex 0x00#5 = some .s0 ∧ regOfIndex 0x18#5 = some .status ∧ regOfIndex 0x17#5 = some (.q 3) ∧
      0x17#5 ≠ 0x18#5 ∧ sample.inReset = false := by decide
theorem witness_RefusedWord :
    decode 0#96 = .error .illegalOpcode ∧ decode 0x310009000000000000000000#96 = .error .illegalOperand ∧
      sample.inReset = false := by decide

/-- One witness for each of the ten statements about a command's word: a word that runs and one that faults. -/
theorem witness_word_rdr : opField 0x011800000000000000000000#96 = 0x01#8 ∧
    opField 0x011900000000000000000000#96 = 0x01#8 ∧ sample.inReset = false := by decide
theorem witness_word_wrr : opField 0x021700000000000000000000#96 = 0x02#8 ∧
    opField 0x021800000000000000000000#96 = 0x02#8 ∧ sample.inReset = false := by decide
theorem witness_word_seed : opField 0x100000000000000000000000#96 = 0x10#8 ∧
    opField 0x100000000000000000000001#96 = 0x10#8 ∧ sample.inReset = false := by decide
theorem witness_word_mix : opField 0x11000000ffffffffffffffff#96 = 0x11#8 ∧
    opField 0x110001000000000000000000#96 = 0x11#8 ∧ sample.inReset = false := by decide
theorem witness_word_hashb : opField 0x200008000000000000000000#96 = 0x20#8 ∧
    opField 0x200009000000000000000001#96 = 0x20#8 ∧ sample.inReset = false := by decide
theorem witness_word_dinit : opField 0x300000000000000000000000#96 = 0x30#8 ∧
    opField 0x300008000000000000000000#96 = 0x30#8 ∧ sample.inReset = false := by decide
theorem witness_word_ldb : opField 0x310308000000000000000000#96 = 0x31#8 ∧
    zerosOk 0x310308000000000000000000#96 = true ∧ (lenField 0x310308000000000000000000#96).toNat ≤ 8 ∧
      (rField 0x310308000000000000000000#96).toNat < 4 ∧ sample.inReset = false := by decide
theorem witness_word_dblk : opField 0x320000000000000000000000#96 = 0x32#8 ∧
    opField 0x320000010000000000000000#96 = 0x32#8 ∧ sample.inReset = false := by decide
theorem witness_word_xacc : opField 0x330300000000000000000000#96 = 0x33#8 ∧
    (rField 0x330300000000000000000000#96).toNat < 4 ∧ opField 0x330400000000000000000000#96 = 0x33#8 ∧
      sample.inReset = false := by decide
theorem witness_word_hamd : opField 0x400000000000000000000000#96 = 0x40#8 ∧
    opField 0x400000000000000000000001#96 = 0x40#8 ∧ sample.inReset = false := by decide

theorem witness_WrrCompletes : (Reg.q 3) ≠ .status ∧ (Reg.s0) ≠ .q 3 := by decide
theorem witness_HashbCompletes : (0 ≤ 8 ∧ 8 ≤ 8) ∧ 8 < 9 := by decide
theorem witness_LdbCompletes : (0 ≤ 8 ∧ 8 ≤ 8) ∧ (0 < 8 ∧ 7 < 8) ∧ 8 < 9 ∧ Reg.b 2 ≠ .b 3 := by decide
theorem witness_CommandsWriteOnlyTheirRegisters :
    (∃ t, exec (.xacc 3 1#64) sample = .next t) ∧ (∃ t, exec (.hashb 9 1#64) sample = .next t) ∧
      (Instr.xacc 3 1#64).wf = true ∧ (Instr.hashb 9 1#64).wf = false :=
  ⟨⟨_, rfl⟩, ⟨_, rfl⟩, rfl, rfl⟩
theorem witness_MixerStepObeysItsLaws :
    (∀ i, i ≤ 33 → (0x400000000#64).getLsbD i = (0#64).getLsbD i) ∧ (0xff#64).toNat ≤ 255 ∧ 63 < 64 := by decide
theorem witness_HashBlockObeysItsLaws :
    (1 ≤ 8 ∧ 8 ≤ 8) ∧ (∀ i, i < 2 → byteOf 0x6261#64 i = byteOf 0xdead6261#64 i) ∧
      (∀ i, i < 2 → byteOf 0xdead0000#64 i = 0#8) := by decide
theorem witness_MixerWork : (Instr.hashb 8 0#64).wf = true ∧ ∃ t, exec (.mix 1#64) sample = .next t :=
  ⟨rfl, ⟨_, rfl⟩⟩
theorem witness_DblkIsEightHashbAndXacc : ∃ t, exec .dblk sample = .next t := ⟨_, rfl⟩

theorem witness_StepKeepsTheInvariant :
    statusReservedZero sample ∧ sample.responses = [] ∧
      ∃ t, step { sample with pending := [.command 0#96] } = .next t := ⟨by decide, rfl, ⟨_, rfl⟩⟩
/-- A step of each of the three kinds: nothing changes, a refused word, the release of reset. -/
theorem witness_StatusBitsAreSticky :
    (∃ t, step sample = .next t ∧ t.status = 0x3#64) ∧
      (∃ t, step { State.reset with pending := [.command 0#96] } = .next t ∧ t.status = 0x1#64) ∧
      (∃ t, step { sample with inReset := true, pending := [.releaseReset] } = .next t ∧ t.status = 0#64) :=
  ⟨⟨_, rfl, by decide⟩, ⟨_, rfl, by decide⟩, ⟨_, rfl, by decide⟩⟩

/-- Two words, the first refused: what the statements over runs assume. -/
theorem witness_runs :
    State.reset.inReset = false ∧ State.reset.status = 0#64 ∧
      (∃ t, runSteps 2 (presentWords [0#96, encode (.xacc 1 0x5#64)] State.reset) = .next t ∧ t.eop = true) ∧
      ∃ t, runSteps 1 (presentWords [encode (.xacc 1 0x5#64)] State.reset) = .next t ∧ t.h.l1 = 0x5#64 :=
  ⟨rfl, rfl, ⟨_, rfl, by decide⟩, ⟨_, rfl, by decide⟩⟩
theorem witness_runs_leave_out_words :
    [0#96, encode (.xacc 1 0x5#64)].filter legalWord = [encode (.xacc 1 0x5#64)] ∧
      [encode (.ldb 0 8 1#64), encode .hamd].filter wordWritesDigest = [encode (.ldb 0 8 1#64)] ∧
      [encode (.wrr (.p 0) 1#64), encode .dblk].filter wordWritesHamming = [encode (.wrr (.p 0) 1#64)] ∧
      writesHamming (.wrr (.q 3) 1#64) = true := by decide
theorem witness_StatusDecidesNothing : (∃ t, exec (.mix 1#64) sample = .next t) ∧ (Instr.mix 1#64) ≠ .rdr .status :=
  ⟨⟨_, rfl⟩, by decide⟩
theorem witness_CommandsReadNoPort : ∃ t, exec (.rdr .status) sample = .next t := ⟨_, rfl⟩
theorem witness_BlockCount : 1 ≤ 1 ∧ 32 * (numBlocks 1 - 1) < 1 ∧ 32 * (numBlocks 32 - 1) < 32 := by decide
theorem witness_Digest : State.reset.inReset = false ∧ sample.inReset = false ∧ (0 < 8 ∧ 7 < 8) := by decide
theorem witness_TrailingZeros : numBlocks (0 + 32) = numBlocks 0 ∧ numBlocks (33 + 31) = numBlocks 33 := by decide
theorem witness_Parse : parse (List.replicate 63 '0' ++ ['F']) = .ok ⟨0#64, 0#64, 0#64, 0xf#64⟩ := by decide +kernel
theorem witness_Hamming :
    parse (render ⟨1#64, 2#64, 3#64, 4#64⟩) = .ok ⟨4#64, 3#64, 2#64, 1#64⟩ ∧ parse [] = .error .malformedDigest ∧
      sample.inReset = false := by decide +kernel
theorem witness_RestoredContext :
    sample.inReset = false ∧ ∀ i ∈ [Instr.dinit, .ldb 0 8 1#64, .dblk, .wrr .s0 9#64], i.wf = true := by decide
theorem witness_Assemble : (Instr.ldb 3 8 0#64).wf = true ∧ (Instr.rdr .status).wf = true := by decide

end Sys2Proof.Tests
end

section
/-! PROOFS. What each command's effect is, and what it depends on: the facts the statements of spec/10_state.md
need beyond Laws. -/

namespace Sys2Proof.Machine

/-! ### The effect of each command, said once -/

theorem eq_commandEffect_of_exec {i : Instr} {s t : State} (h : exec i s = .next t) : t = commandEffect i s := by
  rw [exec_eq_effect] at h
  cases h
  rfl

theorem commandEffect_of_not_wf {i : Instr} (hw : i.wf = false) (s : State) :
    commandEffect i s = raiseFault .illegalOperand s := by
  simp only [commandEffect, exec_of_not_wf hw]

@[simp] theorem commandEffect_rdr (r : Reg) (s : State) :
    commandEffect (.rdr r) s = respond (readReg r s) s := rfl

theorem commandEffect_wrr {r : Reg} (hr : r.writable = true) (d : Word) (s : State) :
    commandEffect (.wrr r d) s = respond 0#64 (writeReg r d s) := by
  simp only [commandEffect, exec, execWrr, hr, if_true]

@[simp] theorem commandEffect_seed (s : State) :
    commandEffect .seed s = respond 0#64 { s with mixer := Mixer.seeded } := rfl

@[simp] theorem commandEffect_mix (d : Word) (s : State) :
    commandEffect (.mix d) s = respond (mix d s.mixer).1 { s with mixer := (mix d s.mixer).2 } := rfl

theorem commandEffect_hashb {n : Nat} (hn : countOk n = true) (d : Word) (s : State) :
    commandEffect (.hashb n d) s =
      respond (hashBlock d n s.mixer).1 { s with mixer := (hashBlock d n s.mixer).2 } := by
  simp only [commandEffect, exec, execHashb, hn, if_true]

@[simp] theorem commandEffect_dinit (s : State) :
    commandEffect .dinit s = respond 0#64 { s with mixer := Mixer.seeded, h := Lanes.zero } := rfl

theorem commandEffect_ldb {n : Nat} (hn : countOk n = true) (k : Lane) (d : Word) (s : State) :
    commandEffect (.ldb k n d) s = respond 0#64 { s with b := s.b.set k (keep d n) } := by
  simp only [commandEffect, exec, execLdb, hn, if_true]

@[simp] theorem commandEffect_dblk (s : State) :
    commandEffect .dblk s = respond 0#64
      { s with mixer := (blockHashes s.b s.mixer).mixer, h := accumulate s.h (blockHashes s.b s.mixer) } := rfl

@[simp] theorem commandEffect_xacc (k : Lane) (d : Word) (s : State) :
    commandEffect (.xacc k d) s = respond 0#64 { s with h := s.h.set k (s.h.get k ^^^ d) } := rfl

@[simp] theorem commandEffect_hamd (s : State) :
    commandEffect .hamd s = respond (BitVec.ofNat 64 (hammingDistance s.p s.q)) s := rfl

/-! ### Registers -/

@[simp] theorem Lanes.get_zero (k : Lane) : Lanes.zero.get k = 0#64 := by
  match k with
  | 0 | 1 | 2 | 3 => rfl

theorem Reg.writable_of_ne_status {r : Reg} (h : r ≠ .status) : r.writable = true := by
  cases r with
  | status => exact absurd rfl h
  | _ => rfl

/-! ### `STATUS` after a command word and after reset -/

/-- The decoder gives legal commands only (30_encoding.md R77, R78), row by row. -/
theorem wf_of_decode {cw : CommandWord} {i : Instr} (h : decode cw = .ok i) : i.wf = true := by
  obtain ⟨-, -, h⟩ := decode_ok_fields h
  unfold decodeOperands at h
  split at h <;> simp only [Option.ite_none_right_eq_some, Option.map_eq_some_iff, Option.filter_eq_some_iff,
    Option.some.injEq, reduceCtorEq] at h
  · obtain ⟨-, r, -, rfl⟩ := h; rfl
  · obtain ⟨-, r, ⟨-, hr⟩, rfl⟩ := h; exact hr
  · obtain ⟨-, rfl⟩ := h; rfl
  · obtain ⟨-, rfl⟩ := h; rfl
  · obtain ⟨⟨-, hn⟩, rfl⟩ := h; exact decide_eq_true hn
  · obtain ⟨-, rfl⟩ := h; rfl
  · obtain ⟨hn, k, -, rfl⟩ := h; exact decide_eq_true hn
  · obtain ⟨-, rfl⟩ := h; rfl
  · obtain ⟨-, k, -, rfl⟩ := h; rfl
  · obtain ⟨-, rfl⟩ := h; rfl

theorem wordEffect_ok {cw : CommandWord} {i : Instr} (h : decode cw = .ok i) (s : State) :
    wordEffect cw s = commandEffect i s := by
  simp only [wordEffect, h]

theorem wordEffect_error {cw : CommandWord} {f : CommandFault} (h : decode cw = .error f) (s : State) :
    wordEffect cw s = raiseFault f s := by
  simp only [wordEffect, h]

/-- A legal command leaves `STATUS`. -/
theorem commandEffect_status_of_wf {i : Instr} (hw : i.wf = true) (s : State) :
    (commandEffect i s).status = s.status := by
  obtain ⟨v, m, h, b, p, q, e⟩ := exec_of_wf hw s
  rw [← eq_commandEffect_of_exec e]
  rfl

/-- A command word leaves `STATUS`, or it is refused and adds its own sticky bit. -/
theorem wordEffect_status (cw : CommandWord) (s : State) :
    (wordEffect cw s).status = s.status ∨
      ∃ f, decode cw = .error f ∧ (wordEffect cw s).status = s.status ||| stickyBit f := by
  cases hd : decode cw with
  | ok i => exact .inl (by rw [wordEffect_ok hd, commandEffect_status_of_wf (wf_of_decode hd)])
  | error f => exact .inr ⟨f, rfl, by rw [wordEffect_error hd, raiseFault_status]⟩

theorem releaseReset_of_inReset {s : State} (h : s.inReset = true) :
    releaseReset s = { State.reset with pending := s.pending, responses := s.responses } := by
  simp only [releaseReset, h, if_true]

theorem releaseReset_of_not_inReset {s : State} (h : s.inReset = false) : releaseReset s = s := by
  simp only [releaseReset, h, Bool.false_eq_true, if_false]

theorem releaseReset_status (s : State) :
    (releaseReset s).status = s.status ∨ (s.inReset = true ∧ (releaseReset s).status = 0#64) := by
  cases hr : s.inReset with
  | true => exact .inr ⟨rfl, by rw [releaseReset_of_inReset hr]; rfl⟩
  | false => exact .inl (by rw [releaseReset_of_not_inReset hr])

/-! ### The invariant -/

theorem State.reset_inv : State.reset.Inv :=
  ⟨by decide, fun _ h => absurd h List.not_mem_nil⟩

/-- The invariant reads `STATUS` and the responses only: a legal response more keeps it. -/
theorem State.Inv.of_added_response {s t : State} {w : ResponseWord} (hs : s.Inv) (ht : statusReservedZero t)
    (hr : t.responses = s.responses ++ [w]) (hl : legalResponse w) : t.Inv := by
  refine ⟨ht, fun x hx => ?_⟩
  rw [hr, List.mem_append, List.mem_singleton] at hx
  rcases hx with hx | rfl
  · exact hs.2 x hx
  · exact hl

/-- A sticky bit set leaves the reserved bits of `STATUS` zero. -/
theorem statusReservedZero_raiseFault {s : State} (f : CommandFault) (hs : statusReservedZero s) :
    statusReservedZero (raiseFault f s) := by
  change (s.status ||| stickyBit f) >>> 2 = 0#64
  rw [BitVec.ushiftRight_or_distrib, hs, stickyBit_shift, BitVec.or_self]

theorem runWord_keeps_inv {cw : CommandWord} {s t : State} (hs : s.Inv) (h : runWord cw s = .next t) : t.Inv := by
  rcases runWord_cases cw s with ⟨v, m, hh, b, p, q, e⟩ | ⟨f, e⟩ <;> rw [e] at h <;> cases h
  · exact hs.of_added_response hs.1 rfl (legalResponse_ok v)
  · exact hs.of_added_response (statusReservedZero_raiseFault f hs.1) rfl (legalResponse_fault f)

theorem releaseReset_keeps_inv {s : State} (hs : s.Inv) : (releaseReset s).Inv := by
  cases hr : s.inReset with
  | true => rw [releaseReset_of_inReset hr]; exact ⟨State.reset_inv.1, hs.2⟩
  | false => rwa [releaseReset_of_not_inReset hr]

/-! ### Runs with words left out -/

/-- Leaving out of a fold the elements that keep a view of the state gives the same view, when the others' effect on
the view depends on the view alone. -/
theorem view_foldl_filter {α β : Type} (view : State → β) (f : State → α → State) (keep : α → Bool)
    (hskip : ∀ a s, keep a = false → view (f s a) = view s)
    (hcongr : ∀ a s u, keep a = true → view s = view u → view (f s a) = view (f u a))
    (as : List α) (s u : State) (h : view s = view u) :
    view (as.foldl f s) = view ((as.filter keep).foldl f u) := by
  induction as generalizing s u with
  | nil => exact h
  | cons a as ih =>
    cases ha : keep a with
    | true =>
      rw [List.filter_cons_of_pos ha]
      exact ih _ _ (hcongr a s u ha h)
    | false =>
      rw [List.filter_cons_of_neg (by simp [ha])]
      exact ih _ _ ((hskip a s ha).trans h)

/-- The same for a run over command words. -/
theorem view_run_filter {β : Type} (view : State → β) (keep : CommandWord → Bool)
    (hskip : ∀ cw s, keep cw = false → view (wordEffect cw s) = view s)
    (hcongr : ∀ cw s u, keep cw = true → view s = view u → view (wordEffect cw s) = view (wordEffect cw u))
    {ws : List CommandWord} {s t u : State} (hs : s.inReset = false)
    (ht : runSteps ws.length (presentWords ws s) = .next t)
    (hu : runSteps (ws.filter keep).length (presentWords (ws.filter keep) s) = .next u) :
    view t = view u := by
  rw [run_presentWords _ _ hs] at ht hu
  cases ht
  cases hu
  exact view_foldl_filter view (fun s cw => wordEffect cw s) keep hskip hcongr ws s s rfl

/-- `P` and `Q` are written by `WRR` alone (10_state.md R25). -/
theorem eq_wrr_of_writesHamming {i : Instr} (h : writesHamming i = true) : ∃ r d, i = .wrr r d := by
  cases i with
  | wrr r d => exact ⟨r, d, rfl⟩
  | _ => cases h

theorem hammingRegisters_commandEffect_of_not_writes {i : Instr} (h : writesHamming i = false) (s : State) :
    hammingRegisters (commandEffect i s) = hammingRegisters s := by
  cases hw : i.wf with
  | false => rw [commandEffect_of_not_wf hw]; rfl
  | true =>
    cases i with
    | wrr r d =>
      cases r with
      | p k | q k => cases h
      | _ => rfl
    | hashb n d => rw [commandEffect_hashb hw]; rfl
    | ldb k n d => rw [commandEffect_ldb hw]; rfl
    | _ => rfl

/-- What `WRR` leaves in `P` and `Q` depends on nothing else of the state. -/
theorem hammingRegisters_commandEffect_wrr_congr (r : Reg) (d : Word) {s u : State}
    (h : hammingRegisters s = hammingRegisters u) :
    hammingRegisters (commandEffect (.wrr r d) s) = hammingRegisters (commandEffect (.wrr r d) u) := by
  obtain ⟨hp, hq⟩ := Prod.mk.inj h
  cases r with
  | p k => exact Prod.ext (congrArg (Lanes.set · k d) hp) hq
  | q k => exact Prod.ext hp (congrArg (Lanes.set · k d) hq)
  | _ => exact h

theorem hammingRegisters_wordEffect_of_not_writes (cw : CommandWord) (s : State) (h : wordWritesHamming cw = false) :
    hammingRegisters (wordEffect cw s) = hammingRegisters s := by
  cases hd : decode cw with
  | ok i =>
    simp only [wordWritesHamming, hd] at h
    rw [wordEffect_ok hd, hammingRegisters_commandEffect_of_not_writes h]
  | error f => rw [wordEffect_error hd]; rfl

theorem hammingRegisters_wordEffect_congr (cw : CommandWord) (s u : State) (hw : wordWritesHamming cw = true)
    (h : hammingRegisters s = hammingRegisters u) :
    hammingRegisters (wordEffect cw s) = hammingRegisters (wordEffect cw u) := by
  cases hd : decode cw with
  | ok i =>
    simp only [wordWritesHamming, hd] at hw
    obtain ⟨r, d, rfl⟩ := eq_wrr_of_writesHamming hw
    rw [wordEffect_ok hd, wordEffect_ok hd]
    exact hammingRegisters_commandEffect_wrr_congr r d h
  | error f => simp only [wordWritesHamming, hd, Bool.false_eq_true] at hw

/-! ### What a command reads -/

/-- Another `STATUS` leaves the effect of a command as it was, but for `STATUS` itself and the answer of
`RDR STATUS`. -/
theorem commandEffect_with_status (i : Instr) (s : State) (x : Word) :
    ∃ y rs, commandEffect i { s with status := x } = { commandEffect i s with status := y, responses := rs } ∧
      (i ≠ .rdr .status → rs = (commandEffect i s).responses) := by
  cases hw : i.wf with
  | false => simp only [commandEffect_of_not_wf hw]; exact ⟨_, _, rfl, fun _ => rfl⟩
  | true =>
    cases i with
    | rdr r =>
      cases r with
      | status => exact ⟨x, _, rfl, fun h => absurd rfl h⟩
      | _ => exact ⟨x, _, rfl, fun _ => rfl⟩
    | wrr r d =>
      cases r with
      | status => cases hw
      | _ => exact ⟨x, _, rfl, fun _ => rfl⟩
    | hashb n d => simp only [commandEffect_hashb hw]; exact ⟨x, _, rfl, fun _ => rfl⟩
    | ldb k n d => simp only [commandEffect_ldb hw]; exact ⟨x, _, rfl, fun _ => rfl⟩
    | _ => exact ⟨x, _, rfl, fun _ => rfl⟩

/-- Other ports leave the effect of a command as it was, the same response added to what the port holds. -/
theorem commandEffect_with_ports (i : Instr) (s : State) :
    ∃ w, (commandEffect i s).responses = s.responses ++ [w] ∧ ∀ line ins outs,
      commandEffect i { s with inReset := line, pending := ins, responses := outs } =
        { commandEffect i s with inReset := line, pending := ins, responses := outs ++ [w] } := by
  cases hw : i.wf with
  | false => simp only [commandEffect_of_not_wf hw]; exact ⟨_, rfl, fun _ _ _ => rfl⟩
  | true =>
    cases i with
    | rdr r => cases r <;> exact ⟨_, rfl, fun _ _ _ => rfl⟩
    | wrr r d => cases r <;> exact ⟨_, rfl, fun _ _ _ => rfl⟩
    | hashb n d => simp only [commandEffect_hashb hw]; exact ⟨_, rfl, fun _ _ _ => rfl⟩
    | ldb k n d => simp only [commandEffect_ldb hw]; exact ⟨_, rfl, fun _ _ _ => rfl⟩
    | _ => exact ⟨_, rfl, fun _ _ _ => rfl⟩

theorem readReg_with_ports (r : Reg) (s : State) (line : Bool) (ins : List HostInput)
    (outs : List ResponseWord) :
    readReg r { s with inReset := line, pending := ins, responses := outs } = readReg r s := by
  cases r <;> rfl

end Sys2Proof.Machine
end

section
/-! PROOFS. The statements of spec/10_state.md: reset values, the frame of every command, and the invariant. -/

namespace Sys2Proof.Machine

/-- Settles O39: a step adds at most one legal response and at most one sticky bit, or releases reset. -/
theorem stepKeepsTheInvariant : Obligations.StepKeepsTheInvariant := by
  intro s t hs h
  rcases step_cases h with ⟨-, rfl⟩ | ⟨rest, -, rfl⟩ | ⟨rest, -, rfl⟩ | ⟨cw, rest, -, -, hrun⟩
  · exact hs
  · exact hs
  · exact releaseReset_keeps_inv (s := { s with pending := rest }) hs
  · exact runWord_keeps_inv (s := { s with pending := rest }) hs hrun

/-- Settles O45: a word that does not write `P` or `Q` keeps them, and what the others leave there depends on them
alone. -/
theorem onlyWritesToOperandRegistersDisturbADistance :
    Obligations.OnlyWritesToOperandRegistersDisturbADistance :=
  ⟨fun _ => eq_wrr_of_writesHamming, fun _ _ _ _ => view_run_filter hammingRegisters wordWritesHamming
    hammingRegisters_wordEffect_of_not_writes hammingRegisters_wordEffect_congr⟩

/-- Settles O25, by the read-after-write laws of registers. -/
theorem wrrCompletesAndWritesItsRegisterAlone : Obligations.WrrCompletesAndWritesItsRegisterAlone := by
  refine ⟨fun r d s hr => ?_, fun d s => exec_of_not_wf rfl s⟩
  have hw : r.writable = true := Reg.writable_of_ne_status hr
  have hexec : ∀ u, exec (.wrr r d) u = .next (respond 0#64 (writeReg r d u)) := fun u => by
    rw [exec_eq_effect, commandEffect_wrr hw]
  refine ⟨_, hexec s, ?_, fun r' hne => ?_, ?_, by simp, by simp, _, hexec _, fun r' => ?_⟩
  · rw [readReg_respond, readReg_writeReg_same d s hw]
  · rw [readReg_respond, readReg_writeReg_ne d s hne]
  · rw [respond_responses, writeReg_responses]; rfl
  · rw [readReg_respond]
    by_cases h : r' = r
    · rw [h, readReg_writeReg_same _ _ hw, readReg_respond, readReg_writeReg_same _ _ hw]
    · rw [readReg_writeReg_ne _ _ h]

/-- Settles O32: a refused term changes no register group; a legal command has its one effect. -/
theorem commandsWriteOnlyTheirRegisters : Obligations.CommandsWriteOnlyTheirRegisters := by
  intro i s t h
  obtain rfl := eq_commandEffect_of_exec h
  cases hw : i.wf with
  | false =>
    rw [commandEffect_of_not_wf hw]
    refine ⟨nofun, fun _ => rfl, ?_⟩
    cases i with
    | wrr r d =>
      cases r with
      | status => simp
      | _ => cases hw
    | hashb n d => simp
    | ldb k n d => simp
    | _ => cases hw
  | true =>
    refine ⟨fun _ => commandEffect_status_of_wf hw s, nofun, ?_⟩
    cases i with
    | wrr r d =>
      rw [commandEffect_wrr hw]
      cases r <;> simp +contextual [writeReg, Lanes.get_set_ne]
    | hashb n d => simp [commandEffect_hashb hw]
    | ldb k n d => simp +contextual [commandEffect_ldb hw, Lanes.get_set_ne]
    | xacc k d => simp +contextual [Lanes.get_set_ne]
    | _ => simp

/-- Settles O40, by the cases of a step. -/
theorem statusBitsAreStickyUntilReset : Obligations.StatusBitsAreStickyUntilReset := by
  intro s t h
  rcases step_cases h with ⟨-, rfl⟩ | ⟨rest, -, rfl⟩ | ⟨rest, hp, rfl⟩ | ⟨cw, rest, hp, -, hrun⟩
  · exact .inl rfl
  · exact .inl rfl
  · exact (releaseReset_status { s with pending := rest }).imp id fun ⟨hr, h0⟩ => .inr ⟨rest, hp, hr, h0⟩
  · rw [runWord_eq_effect] at hrun
    cases hrun
    exact (wordEffect_status cw { s with pending := rest }).imp id fun ⟨f, hd, hf⟩ =>
      .inl ⟨cw, f, rest, hp, hd, hf⟩

/-- Settles O46: another `STATUS` alters the effect of a command in `STATUS` and the answer of `RDR STATUS` only. -/
theorem statusDecidesNothing : Obligations.StatusDecidesNothing := by
  intro i s t x h
  obtain rfl := eq_commandEffect_of_exec h
  obtain ⟨y, rs, he, hrs⟩ := commandEffect_with_status i s x
  refine ⟨_, exec_eq_effect i _, fun r hr => ?_, ?_⟩ <;> rw [he]
  · exact readReg_congr hr rfl rfl rfl rfl rfl
  · exact hrs

/-- Settles O47: the effect of a command under other ports is its effect, ports aside, with the same response. -/
theorem commandsReadNoPort : Obligations.CommandsReadNoPort := by
  intro i s t line ins outs h
  obtain rfl := eq_commandEffect_of_exec h
  obtain ⟨w, hw, he⟩ := commandEffect_with_ports i s
  refine ⟨_, w, exec_eq_effect i _, fun r => ?_, hw, ?_⟩ <;> rw [he]
  · exact readReg_with_ports r _ line ins _
  · exact ⟨rfl, rfl, rfl⟩

/-- Settles O1: the reset state written out. -/
theorem resetLeavesEveryRegisterAtItsStatedValue : Obligations.ResetLeavesEveryRegisterAtItsStatedValue := by
  refine ⟨rfl, rfl, fun k => ?_, rfl, rfl, rfl, rfl, rfl⟩
  have hz : Lanes.zero.get k = 0#64 := Lanes.get_zero k
  exact ⟨hz, hz, hz, hz⟩

/-- Settles O38: `STATUS` is 0 and nothing has been answered. -/
theorem invariantHoldsAfterReset : Obligations.InvariantHoldsAfterReset := State.reset_inv

end Sys2Proof.Machine
end

section
/-! PROOFS. From a presented word to its step: what the decoder answers for a word that passes its first tests, and the
step over a word that decodes and over one that does not. -/

namespace Sys2Proof

/-! ### The decoder after the opcode test -/

theorem decode_eq_ok {cw : CommandWord} {i : Instr} (ha : opField cw ∈ assignedOpcodes) (hz : zerosOk cw = true)
    (h : decodeOperands (opField cw) (rField cw) (lenField cw) (dataField cw) = some i) : decode cw = .ok i := by
  simp only [decode, ha, hz, h, if_true]

/-- An assigned opcode whose must-be-zero fields or operands are refused (30_encoding.md R78, R79). -/
theorem decode_eq_illegalOperand {cw : CommandWord} (ha : opField cw ∈ assignedOpcodes)
    (h : zerosOk cw = true → decodeOperands (opField cw) (rField cw) (lenField cw) (dataField cw) = none) :
    decode cw = .error .illegalOperand := by
  cases hz : zerosOk cw with
  | true => simp only [decode, ha, hz, h hz, if_true]
  | false => simp only [decode, ha, hz, if_true, Bool.false_eq_true, if_false]

/-! ### The words of `RDR` and `WRR` at an index -/

theorem decodeOperands_rdr (x : BitVec 5) : decodeOperands 0x01#8 x 0#4 0#64 = (regOfIndex x).map .rdr :=
  rfl

theorem decodeOperands_wrr (x : BitVec 5) (d : Word) :
    decodeOperands 0x02#8 x 0#4 d = ((regOfIndex x).filter Reg.writable).map (.wrr · d) :=
  rfl

theorem decode_rdr_of_index {x : BitVec 5} {r : Reg} (h : regOfIndex x = some r) :
    decode (packCommand 0x01#8 x 0#4 0#64) = .ok (.rdr r) :=
  decode_eq_ok (by simp [assignedOpcodes]) (by simp) (by simp [decodeOperands_rdr, h])

theorem decode_rdr_of_reserved {x : BitVec 5} (h : regOfIndex x = none) :
    decode (packCommand 0x01#8 x 0#4 0#64) = .error .illegalOperand :=
  decode_eq_illegalOperand (by simp [assignedOpcodes]) fun _ => by simp [decodeOperands_rdr, h]

theorem decode_wrr_of_index {x : BitVec 5} {r : Reg} (h : regOfIndex x = some r) (hw : r.writable = true) (d : Word) :
    decode (packCommand 0x02#8 x 0#4 d) = .ok (.wrr r d) :=
  decode_eq_ok (by simp [assignedOpcodes]) (by simp) (by simp [decodeOperands_wrr, h, hw])

theorem decode_wrr_of_not_writable {x : BitVec 5} (h : (regOfIndex x).filter Reg.writable = none) (d : Word) :
    decode (packCommand 0x02#8 x 0#4 d) = .error .illegalOperand :=
  decode_eq_illegalOperand (by simp [assignedOpcodes]) fun _ => by simp [decodeOperands_wrr, h]

/-! ### The register index map (20_memory.md R51) -/

theorem regOfIndex_h (k : Lane) : regOfIndex (BitVec.ofNat 5 (0x04 + k.val)) = some (.h k) :=
  regOfIndex_regIndex (.h k)

theorem regOfIndex_b (k : Lane) : regOfIndex (BitVec.ofNat 5 (0x08 + k.val)) = some (.b k) :=
  regOfIndex_regIndex (.b k)

theorem regOfIndex_p (k : Lane) : regOfIndex (BitVec.ofNat 5 (0x10 + k.val)) = some (.p k) :=
  regOfIndex_regIndex (.p k)

theorem regOfIndex_q (k : Lane) : regOfIndex (BitVec.ofNat 5 (0x14 + k.val)) = some (.q k) :=
  regOfIndex_regIndex (.q k)

/-- The reserved indices. -/
theorem regOfIndex_eq_none_iff (x : BitVec 5) :
    regOfIndex x = none ↔
      x.toNat = 0x02 ∨ x.toNat = 0x03 ∨ (0x0C ≤ x.toNat ∧ x.toNat ≤ 0x0F) ∨ 0x19 ≤ x.toNat := by
  revert x; decide

/-- `STATUS` is the one register `WRR` refuses, and `0x18` is its one index. -/
theorem writable_of_index_ne {x : BitVec 5} {r : Reg} (h : regOfIndex x = some r) (hx : x ≠ 0x18#5) :
    r.writable = true := by
  cases r with
  | status => exact absurd (regIndex_regOfIndex h).symm hx
  | _ => rfl

theorem filter_writable_eq_none {x : BitVec 5} (h : regOfIndex x = none ∨ x = 0x18#5) :
    (regOfIndex x).filter Reg.writable = none := by
  rcases h with h | rfl
  · rw [h]; rfl
  · rfl

end Sys2Proof

namespace Sys2Proof.Machine

/-! ### The step over a presented word -/

theorem step_of_decode_ok {cw : CommandWord} {i : Instr} (h : decode cw = .ok i) {s : State}
    (hr : s.inReset = false) : step { s with pending := .command cw :: s.pending } = exec i s := by
  rw [step_command s cw hr]
  simp only [runWord, h]

theorem step_of_decode_error {cw : CommandWord} {f : CommandFault} (h : decode cw = .error f) {s : State}
    (hr : s.inReset = false) :
    step { s with pending := .command cw :: s.pending } = .next (raiseFault f s) := by
  rw [step_command s cw hr]
  simp only [runWord, h]

theorem step_of_pending_nil {s : State} (h : s.pending = []) : step s = .next s := by
  simp only [step, takeInput, h]

theorem exec_rdr (r : Reg) (s : State) : exec (.rdr r) s = .next (respond (readReg r s) s) := rfl

theorem exec_wrr {r : Reg} (hw : r.writable = true) (d : Word) (s : State) :
    exec (.wrr r d) s = .next (respond 0#64 (writeReg r d s)) := by
  rw [exec_eq_effect, commandEffect_wrr hw]

end Sys2Proof.Machine
end

section
/-! PROOFS. The statements of spec/20_memory.md: the register index map, what a step is, and reading a register. -/

namespace Sys2Proof.Machine

/-- Settles O11: the map index by index, then the step over each word from what the word decodes to. -/
theorem registerIndexMapIsTheStatedOne : Obligations.RegisterIndexMapIsTheStatedOne := by
  refine ⟨⟨rfl, rfl, rfl, fun k => ⟨regOfIndex_h k, regOfIndex_b k, regOfIndex_p k, regOfIndex_q k⟩⟩,
    regOfIndex_eq_none_iff, fun x r s hs hx => ?_, fun x r d s hs hx hne => ?_, fun x s hs hx => ?_,
    fun x d s hs hx => ?_⟩
  · rw [step_of_decode_ok (decode_rdr_of_index hx) hs, exec_rdr]
  · have hw : r.writable = true := writable_of_index_ne hx hne
    rw [step_of_decode_ok (decode_wrr_of_index hx hw d) hs, exec_wrr hw]
    exact ⟨rfl, readReg_writeReg_same d s hw⟩
  · exact step_of_decode_error (decode_rdr_of_reserved hx) hs
  · exact step_of_decode_error (decode_wrr_of_not_writable (filter_writable_eq_none hx) d) hs

/-- Settles O3: the decoded word's step, and the idle step. -/
theorem stepRunsTheDecodedCommand : Obligations.StepRunsTheDecodedCommand :=
  ⟨fun _ _ _ hs hd => step_of_decode_ok hd hs, fun _ => step_of_pending_nil⟩

/-- Settles O24: `RDR` adds its answer, and an added answer does not alter what a register reads. -/
theorem rdrCompletesAndChangesNoRegister : Obligations.RdrCompletesAndChangesNoRegister := by
  intro r s
  have hagain := exec_rdr r (respond (readReg r s) s)
  rw [readReg_respond] at hagain
  exact ⟨exec_rdr r s, hagain⟩

end Sys2Proof.Machine
end

section
/-! PROOFS. The encoding said once: numbers of joined fields, the word a decoded command came from, and what a row of
the match and mask table asks of a word (30_encoding.md R71 to R79). -/

namespace Sys2Proof

/-! ### Joined fields as numbers (R71) -/

theorem toNat_append_eq_mul_add {n m : Nat} (x : BitVec n) (y : BitVec m) :
    (x ++ y).toNat = x.toNat * 2 ^ m + y.toNat := by
  rw [BitVec.toNat_append, ← Nat.shiftLeft_add_eq_or_of_lt y.isLt, Nat.shiftLeft_eq]

/-! ### From a command to its word and back -/

theorem encode_fields (i : Instr) : Laws.EncodedFields.Statement i := by
  cases i with
  | rdr r => exact Laws.EncodedFields.rdr r
  | wrr r d => exact Laws.EncodedFields.wrr r d
  | seed => exact Laws.EncodedFields.seed
  | mix d => exact Laws.EncodedFields.mix d
  | hashb n d => exact Laws.EncodedFields.hashb n d
  | dinit => exact Laws.EncodedFields.dinit
  | ldb k n d => exact Laws.EncodedFields.ldb k n d
  | dblk => exact Laws.EncodedFields.dblk
  | xacc k d => exact Laws.EncodedFields.xacc k d
  | hamd => exact Laws.EncodedFields.hamd

theorem opcode_mem_assignedOpcodes (i : Instr) : i.opcode ∈ assignedOpcodes := by
  cases i <;> simp [Instr.opcode, assignedOpcodes]

/-- The operand fields of a legal command's word read back as the command (R76, R78). -/
theorem decodeOperands_encode {i : Instr} (hw : i.wf = true) :
    decodeOperands i.opcode (rField (encode i)) (lenField (encode i)) (dataField (encode i)) = some i := by
  cases i with
  | wrr r d =>
    have hr : r.writable = true := hw
    simp [decodeOperands, Instr.opcode, encode, hr]
  | hashb n d =>
    have hn : n ≤ Config.subLen := of_decide_eq_true hw
    simp [decodeOperands, Instr.opcode, encode, toNat_ofNat_count hw, hn, -BitVec.toNat_ofNat]
  | ldb k n d =>
    have hn : n ≤ Config.subLen := of_decide_eq_true hw
    simp [decodeOperands, Instr.opcode, encode, toNat_ofNat_count hw, hn, -BitVec.toNat_ofNat]
  | _ => simp [decodeOperands, Instr.opcode, encode]

theorem eq_ofNat_of_toNat_eq {w n : Nat} {x : BitVec w} (h : x.toNat = n) : x = BitVec.ofNat w n := by
  rw [← h, BitVec.ofNat_toNat, BitVec.setWidth_eq]

/-- Every field `decodeOperands` reads stands in the word of the command it answers, row by row of R78: what the
command does not carry was tested to be zero. -/
theorem encode_of_decodeOperands {op : BitVec 8} {r : BitVec 5} {len : BitVec 4} {data : Word} {i : Instr}
    (h : decodeOperands op r len data = some i) : encode i = packCommand op r len data := by
  unfold decodeOperands at h
  split at h <;> simp only [Option.ite_none_right_eq_some, Option.map_eq_some_iff, Option.filter_eq_some_iff,
    Option.some.injEq, reduceCtorEq] at h <;> (rename_i hop; obtain rfl := eq_ofNat_of_toNat_eq hop)
  · obtain ⟨⟨rfl, rfl⟩, r, hr, rfl⟩ := h; rw [encode, regIndex_regOfIndex hr]
  · obtain ⟨rfl, r, ⟨hr, -⟩, rfl⟩ := h; rw [encode, regIndex_regOfIndex hr]
  · obtain ⟨⟨rfl, rfl, rfl⟩, rfl⟩ := h; rfl
  · obtain ⟨⟨rfl, rfl⟩, rfl⟩ := h; rfl
  · obtain ⟨⟨rfl, -⟩, rfl⟩ := h; rw [encode, ← eq_ofNat_of_toNat_eq rfl]
  · obtain ⟨⟨rfl, rfl, rfl⟩, rfl⟩ := h; rfl
  · obtain ⟨-, k, hk, rfl⟩ := h; rw [encode, laneField_laneOfField hk, ← eq_ofNat_of_toNat_eq rfl]
  · obtain ⟨⟨rfl, rfl, rfl⟩, rfl⟩ := h; rfl
  · obtain ⟨rfl, k, hk, rfl⟩ := h; rw [encode, laneField_laneOfField hk]
  · obtain ⟨⟨rfl, rfl, rfl⟩, rfl⟩ := h; rfl

theorem encode_of_decode {cw : CommandWord} {i : Instr} (h : decode cw = .ok i) : encode i = cw := by
  obtain ⟨-, hz, ho⟩ := decode_ok_fields h
  rw [encode_of_decodeOperands ho, packCommand_fields hz]

theorem decode_encode {i : Instr} (hw : i.wf = true) : decode (encode i) = .ok i := by
  obtain ⟨hop, hz⟩ := encode_fields i
  refine decode_eq_ok ?_ hz ?_ <;> rw [hop]
  · exact opcode_mem_assignedOpcodes i
  · exact decodeOperands_encode hw

theorem opcode_of_decode {cw : CommandWord} {i : Instr} (h : decode cw = .ok i) : i.opcode = opField cw := by
  rw [← (encode_fields i).1, encode_of_decode h]

/-! ### The two refusals (R79) -/

theorem mem_assignedOpcodes_iff (op : BitVec 8) :
    op ∈ assignedOpcodes ↔ op.toNat ∈ [0x01, 0x02, 0x10, 0x11, 0x20, 0x30, 0x31, 0x32, 0x33, 0x40] := by
  simp [assignedOpcodes, ← BitVec.toNat_inj]

/-- An assigned opcode never raises `ILLEGAL_OPCODE`, whatever its operands. -/
theorem decode_eq_illegalOpcode_iff (cw : CommandWord) :
    decode cw = .error .illegalOpcode ↔ opField cw ∉ assignedOpcodes := by
  by_cases ha : opField cw ∈ assignedOpcodes
  · refine iff_of_false (fun h => ?_) (not_not_intro ha)
    rw [decode, if_pos ha] at h
    split at h
    · split at h <;> cases h
    · cases h
  · exact iff_of_true (if_neg ha) ha

/-- The three answers of the decoder exclude one another, so the second fault is what is left. -/
theorem decode_eq_illegalOperand_iff (cw : CommandWord) :
    decode cw = .error .illegalOperand ↔ opField cw ∈ assignedOpcodes ∧ ∀ i, decode cw ≠ .ok i := by
  have hop := decode_eq_illegalOpcode_iff cw
  rcases hd : decode cw with (_ | _) | i
  · simp [hop.1 hd]
  · have ha : opField cw ∈ assignedOpcodes := not_not.1 fun h => by simp [hop.2 h] at hd
    simp [ha]
  · simp

/-! ### The match and mask table (R77) -/

theorem z1Field_and (a b : CommandWord) : z1Field (a &&& b) = z1Field a &&& z1Field b := BitVec.extractLsb'_and
theorem rField_and (a b : CommandWord) : rField (a &&& b) = rField a &&& rField b := BitVec.extractLsb'_and
theorem z2Field_and (a b : CommandWord) : z2Field (a &&& b) = z2Field a &&& z2Field b := BitVec.extractLsb'_and
theorem lenField_and (a b : CommandWord) : lenField (a &&& b) = lenField a &&& lenField b := BitVec.extractLsb'_and
theorem z3Field_and (a b : CommandWord) : z3Field (a &&& b) = z3Field a &&& z3Field b := BitVec.extractLsb'_and
theorem dataField_and (a b : CommandWord) : dataField (a &&& b) = dataField a &&& dataField b := BitVec.extractLsb'_and

/-- The table has one row per assigned opcode, in the order of the opcode list. -/
theorem encodingTable_opcodes : encodingTable.map EncodingRow.opcode = assignedOpcodes := rfl

theorem row_eq_of_opcode_eq :
    ∀ row ∈ encodingTable, ∀ row' ∈ encodingTable, row.opcode = row'.opcode → row = row' := by
  decide

/-- Every row fixes its opcode and the must-be-zero fields, and wants zero wherever else it fixes a bit. -/
theorem row_fixed_fields : ∀ row ∈ encodingTable,
    row.pattern = packCommand row.opcode 0#5 0#4 0#64 ∧ opField row.mask = BitVec.allOnes 8 ∧
      z1Field row.mask = BitVec.allOnes 3 ∧ z2Field row.mask = BitVec.allOnes 4 ∧
      z3Field row.mask = BitVec.allOnes 8 := by
  decide

/-- What the mask of each row keeps of `r`, `len` and `data`. -/
theorem row_operand_masks :
    encodingTable.map (fun row => (row.opcode, rField row.mask, lenField row.mask, dataField row.mask)) =
      [ (0x01#8, 0#5, BitVec.allOnes 4, BitVec.allOnes 64),
        (0x02#8, 0#5, BitVec.allOnes 4, 0#64),
        (0x10#8, BitVec.allOnes 5, BitVec.allOnes 4, BitVec.allOnes 64),
        (0x11#8, BitVec.allOnes 5, BitVec.allOnes 4, 0#64),
        (0x20#8, BitVec.allOnes 5, 0#4, 0#64),
        (0x30#8, BitVec.allOnes 5, BitVec.allOnes 4, BitVec.allOnes 64),
        (0x31#8, 0b11100#5, 0#4, 0#64),
        (0x32#8, BitVec.allOnes 5, BitVec.allOnes 4, BitVec.allOnes 64),
        (0x33#8, 0b11100#5, BitVec.allOnes 4, 0#64),
        (0x40#8, BitVec.allOnes 5, BitVec.allOnes 4, BitVec.allOnes 64) ] := by
  decide

theorem masked_eq_pattern_iff {row : EncodingRow} (hrow : row ∈ encodingTable) (cw : CommandWord) :
    cw &&& row.mask = row.pattern ↔ opField cw = row.opcode ∧ zerosOk cw = true ∧
      rField cw &&& rField row.mask = 0#5 ∧ lenField cw &&& lenField row.mask = 0#4 ∧
      dataField cw &&& dataField row.mask = 0#64 := by
  obtain ⟨hp, hop, hz1, hz2, hz3⟩ := row_fixed_fields row hrow
  rw [word_eq_iff, hp]
  simp only [opField_and, z1Field_and, rField_and, z2Field_and, lenField_and, z3Field_and, dataField_and, hop, hz1,
    hz2, hz3, BitVec.and_allOnes, opField_packCommand, z1Field_packCommand, rField_packCommand, z2Field_packCommand,
    lenField_packCommand, z3Field_packCommand, dataField_packCommand, zerosOk, Bool.and_eq_true, beq_iff_eq,
    and_assoc, and_left_comm]

/-- A lane is what the mask bits `0b11100` of `r` say it is. -/
theorem laneOfField_isSome_iff (x : BitVec 5) : (laneOfField x).isSome = true ↔ x &&& 0b11100#5 = 0#5 := by
  revert x; decide

/-- The operand tests of R78 are the operand bits of the row's mask together with its extra condition. -/
theorem decodeOperands_isSome_iff {row : EncodingRow} (hrow : row ∈ encodingTable) (cw : CommandWord) :
    (decodeOperands row.opcode (rField cw) (lenField cw) (dataField cw)).isSome = true ↔
      rField cw &&& rField row.mask = 0#5 ∧ lenField cw &&& lenField row.mask = 0#4 ∧
        dataField cw &&& dataField row.mask = 0#64 ∧ extraCondition row.opcode cw = true := by
  have h := List.mem_map_of_mem
    (f := fun row : EncodingRow => (row.opcode, rField row.mask, lenField row.mask, dataField row.mask)) hrow
  simp only [row_operand_masks, List.mem_cons, List.not_mem_nil, or_false, Prod.mk.injEq] at h
  rcases h with h | h | h | h | h | h | h | h | h | h <;>
    (obtain ⟨ho, hr, hl, hd⟩ := h
     rw [ho, hr, hl, hd, decodeOperands, extraCondition]
     simp only [BitVec.and_allOnes, BitVec.and_zero, ← laneOfField_isSome_iff]
     simp [apply_ite Option.isSome, and_assoc, and_comm, and_left_comm])

/-- R77's rule for one row. -/
theorem decodes_to_row_iff {row : EncodingRow} (hrow : row ∈ encodingTable) (cw : CommandWord) :
    (∃ i, decode cw = .ok i ∧ i.opcode = row.opcode) ↔
      (cw &&& row.mask = row.pattern ∧ extraCondition row.opcode cw = true) := by
  have hops := decodeOperands_isSome_iff hrow cw
  rw [masked_eq_pattern_iff hrow]
  constructor
  · rintro ⟨i, hd, hop⟩
    obtain ⟨-, hz, ho⟩ := decode_ok_fields hd
    rw [opcode_of_decode hd] at hop
    obtain ⟨hr, hl, hdata, hx⟩ := hops.1 (by rw [← hop, ho]; rfl)
    exact ⟨⟨hop, hz, hr, hl, hdata⟩, hx⟩
  · rintro ⟨⟨hop, hz, hr, hl, hdata⟩, hx⟩
    obtain ⟨i, hi⟩ := Option.isSome_iff_exists.1 (hops.2 ⟨hr, hl, hdata, hx⟩)
    have ha : row.opcode ∈ assignedOpcodes := encodingTable_opcodes ▸ List.mem_map_of_mem hrow
    have hd : decode cw = .ok i := decode_eq_ok (hop ▸ ha) hz (hop ▸ hi)
    exact ⟨i, hd, (opcode_of_decode hd).trans hop⟩

theorem exists_row_of_command (i : Instr) : ∃ row ∈ encodingTable, i.opcode = row.opcode := by
  obtain ⟨row, hrow, ho⟩ := List.mem_map.1 (encodingTable_opcodes ▸ opcode_mem_assignedOpcodes i)
  exact ⟨row, hrow, ho.symm⟩

end Sys2Proof
end

section
/-! PROOFS. Response words: the number of one, and what a run adds, one for each command word with the code its
decoding calls for (30_encoding.md R74). -/

namespace Sys2Proof.Machine

theorem toNat_packResponse (c : Byte) (v : Word) : (packResponse c v).toNat = c.toNat * 2 ^ 64 + v.toNat :=
  toNat_append_eq_mul_add c v

/-- The response code a command word calls for (R74, R201). -/
def answerCode (cw : CommandWord) : Byte :=
  match decode cw with
  | .ok _ => codeOk
  | .error f => faultCode f

/-- A command word adds one response, which is legal and has its code. -/
theorem wordEffect_adds_response (cw : CommandWord) (s : State) :
    ∃ rw, (wordEffect cw s).responses = s.responses ++ [rw] ∧ responseCode rw = answerCode cw ∧ legalResponse rw := by
  cases hd : decode cw with
  | ok i =>
    obtain ⟨v, m, h, b, p, q, he⟩ := exec_of_wf (wf_of_decode hd) s
    refine ⟨packResponse codeOk v, ?_, ?_, legalResponse_ok v⟩
    · rw [wordEffect_ok hd, ← eq_commandEffect_of_exec he, respond_responses]
    · rw [responseCode_packResponse, answerCode, hd]
  | error f =>
    refine ⟨packResponse (faultCode f) 0#64, ?_, ?_, legalResponse_fault f⟩
    · rw [wordEffect_error hd, raiseFault_responses]
    · rw [responseCode_packResponse, answerCode, hd]

/-- A run over command words adds one legal response for each, in their order. -/
theorem foldl_wordEffect_adds_responses (ws : List CommandWord) (s : State) :
    ∃ rs, (ws.foldl (fun t cw => wordEffect cw t) s).responses = s.responses ++ rs ∧
      rs.map responseCode = ws.map answerCode ∧ ∀ rw ∈ rs, legalResponse rw := by
  induction ws generalizing s with
  | nil => exact ⟨[], (List.append_nil _).symm, rfl, fun _ h => absurd h List.not_mem_nil⟩
  | cons cw ws ih =>
    obtain ⟨rw, hr, hcode, hlegal⟩ := wordEffect_adds_response cw s
    obtain ⟨rs, hrs, hcodes, hlegals⟩ := ih (wordEffect cw s)
    refine ⟨rw :: rs, ?_, ?_, List.forall_mem_cons.2 ⟨hlegal, hlegals⟩⟩
    · rw [List.foldl_cons, hrs, hr, List.append_assoc, List.singleton_append]
    · rw [List.map_cons, List.map_cons, hcode, hcodes]

end Sys2Proof.Machine
end

section
/-! PROOFS. The assembler line of a command: its words are tokens, a line of tokens falls apart into them again, and
each operand reads back (30_encoding.md R82). -/

namespace Sys2Proof.Machine

/-! ### Tokens -/

/-- The character has no part in separating the words of a line. -/
def isTokenChar (c : Char) : Bool := c != ';' && c != ',' && !isBlank c

/-- A word of a line: what `assemble` neither cuts nor trims. -/
def isToken (t : List Char) : Bool := !t.isEmpty && t.all isTokenChar

theorem isToken_ne_nil {t : List Char} (h : isToken t = true) : t ≠ [] := by
  rintro rfl
  cases h

theorem isToken_char {t : List Char} (h : isToken t = true) {c : Char} (hc : c ∈ t) :
    c ≠ ';' ∧ c ≠ ',' ∧ isBlank c = false := by
  have hall : t.all isTokenChar = true := (Bool.and_eq_true_iff.1 h).2
  simpa [isTokenChar, and_assoc] using List.all_eq_true.1 hall c hc

/-! ### Trimming -/

/-- The text neither begins nor ends with a blank. -/
def Trimmed (t : List Char) : Prop :=
  (∀ c ∈ t.head?, isBlank c = false) ∧ ∀ c ∈ t.getLast?, isBlank c = false

theorem trimmed_of_isToken {t : List Char} (h : isToken t = true) : Trimmed t :=
  ⟨fun _ hc => (isToken_char h (List.mem_of_mem_head? hc)).2.2,
   fun _ hc => (isToken_char h (List.mem_of_mem_getLast? hc)).2.2⟩

theorem Trimmed.append {x z : List Char} (hx : Trimmed x) (hz : Trimmed z) (hx0 : x ≠ []) (hz0 : z ≠ [])
    (y : List Char) : Trimmed (x ++ y ++ z) := by
  obtain ⟨hhead, -⟩ := hx
  obtain ⟨-, hlast⟩ := hz
  constructor
  · rwa [List.append_assoc, List.head?_append_of_ne_nil x hx0]
  · rwa [List.getLast?_append_of_ne_nil _ hz0]

theorem trimBlanks_of_trimmed {t : List Char} (h : Trimmed t) : trimBlanks t = t := by
  have hhead : t.dropWhile isBlank = t := by
    cases t with
    | nil => rfl
    | cons c cs => exact List.dropWhile_cons_of_neg (by simp [h.1 c rfl])
  have hlast : t.rdropWhile isBlank = t :=
    List.rdropWhile_eq_self_iff.2 fun h0 => by simp [h.2 _ (List.getLast?_eq_getLast_of_ne_nil h0)]
  rw [trimBlanks, hhead]
  exact hlast

theorem trimBlanks_space_cons (t : List Char) : trimBlanks (' ' :: t) = trimBlanks t := rfl

/-! ### Cutting a line -/

theorem splitCommas_ne_nil (t : List Char) : splitCommas t ≠ [] := by
  cases t with
  | nil => simp [splitCommas]
  | cons c cs => rw [splitCommas]; split <;> [simp; split <;> simp]

theorem splitCommas_cons_of_ne {c : Char} {cs piece : List Char} {rest : List (List Char)} (hc : c ≠ ',')
    (h : splitCommas cs = piece :: rest) : splitCommas (c :: cs) = (c :: piece) :: rest := by
  rw [splitCommas, if_neg hc, h]

/-- A piece without a comma ends at the next one. -/
theorem splitCommas_append_comma {x : List Char} (hx : ∀ c ∈ x, c ≠ ',') (t : List Char) :
    splitCommas (x ++ ',' :: t) = x :: splitCommas t := by
  induction x with
  | nil => simp [splitCommas]
  | cons c cs ih =>
    obtain ⟨hc, hcs⟩ := List.forall_mem_cons.1 hx
    exact splitCommas_cons_of_ne hc (ih hcs)

theorem splitCommas_of_no_comma {x : List Char} (hx : ∀ c ∈ x, c ≠ ',') : splitCommas x = [x] := by
  induction x with
  | nil => rfl
  | cons c cs ih =>
    obtain ⟨hc, hcs⟩ := List.forall_mem_cons.1 hx
    exact splitCommas_cons_of_ne hc (ih hcs)

theorem map_trimBlanks_splitCommas_space (t : List Char) :
    (splitCommas (' ' :: t)).map trimBlanks = (splitCommas t).map trimBlanks := by
  obtain ⟨piece, rest, h⟩ := List.exists_cons_of_ne_nil (splitCommas_ne_nil t)
  rw [splitCommas_cons_of_ne (by decide) h, h, List.map_cons, List.map_cons, trimBlanks_space_cons]

/-! ### A line of tokens -/

theorem joinOperands_ne_nil {op : List Char} {ops : List (List Char)} (h : isToken op = true) :
    joinOperands (op :: ops) ≠ [] := by
  cases ops <;> simp [joinOperands, isToken_ne_nil h]

theorem trimmed_joinOperands {ops : List (List Char)} (h : ∀ op ∈ ops, isToken op = true) :
    Trimmed (joinOperands ops) := by
  induction ops using joinOperands.induct with
  | case1 => simp [joinOperands, Trimmed]
  | case2 x => exact trimmed_of_isToken (h x (by simp))
  | case3 x y rest ih =>
    obtain ⟨hx, hrest⟩ := List.forall_mem_cons.1 h
    exact (trimmed_of_isToken hx).append (ih hrest) (isToken_ne_nil hx) (joinOperands_ne_nil (hrest y (by simp))) _

theorem joinOperands_no_comment {ops : List (List Char)} (h : ∀ op ∈ ops, isToken op = true) :
    ∀ c ∈ joinOperands ops, c ≠ ';' := by
  induction ops using joinOperands.induct with
  | case1 => simp [joinOperands]
  | case2 x => exact fun c hc => (isToken_char (h x (by simp)) hc).1
  | case3 x y rest ih =>
    obtain ⟨hx, hrest⟩ := List.forall_mem_cons.1 h
    simp only [joinOperands, List.forall_mem_append]
    exact ⟨⟨fun c hc => (isToken_char hx hc).1, by simp⟩, ih hrest⟩

/-- Cutting the joined operands at their commas and trimming the pieces gives the operands. -/
theorem split_joinOperands {ops : List (List Char)} (h0 : ops ≠ []) (h : ∀ op ∈ ops, isToken op = true) :
    (splitCommas (joinOperands ops)).map trimBlanks = ops := by
  induction ops using joinOperands.induct with
  | case1 => exact absurd rfl h0
  | case2 x =>
    have hx : isToken x = true := h x (by simp)
    rw [joinOperands, splitCommas_of_no_comma fun c hc => (isToken_char hx hc).2.1, List.map_singleton,
      trimBlanks_of_trimmed (trimmed_of_isToken hx)]
  | case3 x y rest ih =>
    obtain ⟨hx, hrest⟩ := List.forall_mem_cons.1 h
    have hcut := splitCommas_append_comma (fun c hc => (isToken_char hx hc).2.1) (' ' :: joinOperands (y :: rest))
    rw [joinOperands, List.append_assoc]
    change (splitCommas (x ++ ',' :: ' ' :: joinOperands (y :: rest))).map trimBlanks = _
    rw [hcut, List.map_cons, map_trimBlanks_splitCommas_space, ih (List.cons_ne_nil y rest) hrest,
      trimBlanks_of_trimmed (trimmed_of_isToken hx)]

/-- Without a comment a line is kept whole. -/
theorem stripComment_of_no_comment {t : List Char} (h : ∀ c ∈ t, c ≠ ';') : stripComment t = t :=
  List.takeWhile_eq_self_iff.2 fun c hc => by simpa using h c hc

theorem takeWhile_mnemonic {mn : List Char} (h : isToken mn = true) (t : List Char) :
    (mn ++ t).takeWhile (fun c => !isBlank c) = mn ++ t.takeWhile fun c => !isBlank c :=
  List.takeWhile_append_of_pos fun _ hc => by simp [(isToken_char h hc).2.2]

theorem assemble_mnemonic {mn : List Char} (h : isToken mn = true) :
    assemble mn = (assembleParts mn []).filter Instr.wf := by
  have htake : mn.takeWhile (fun c => !isBlank c) = mn := by simpa using takeWhile_mnemonic h []
  rw [assemble, stripComment_of_no_comment fun c hc => (isToken_char h hc).1,
    trimBlanks_of_trimmed (trimmed_of_isToken h)]
  simp only [htake, List.drop_length]
  rfl

theorem assemble_mnemonic_operands {mn : List Char} {ops : List (List Char)} (hmn : isToken mn = true)
    (h0 : ops ≠ []) (hops : ∀ op ∈ ops, isToken op = true) :
    assemble (mn ++ [' '] ++ joinOperands ops) = (assembleParts mn ops).filter Instr.wf := by
  have hjoin0 : joinOperands ops ≠ [] := by
    obtain ⟨op, rest, rfl⟩ := List.exists_cons_of_ne_nil h0
    exact joinOperands_ne_nil (hops op (by simp))
  have hjoin := trimmed_joinOperands hops
  have hline := (trimmed_of_isToken hmn).append hjoin (isToken_ne_nil hmn) hjoin0 [' ']
  have hcomment : ∀ c ∈ mn ++ [' '] ++ joinOperands ops, c ≠ ';' := by
    simp only [List.forall_mem_append]
    exact ⟨⟨fun c hc => (isToken_char hmn hc).1, by simp⟩, joinOperands_no_comment hops⟩
  have htake : (mn ++ [' '] ++ joinOperands ops).takeWhile (fun c => !isBlank c) = mn := by
    rw [List.append_assoc, takeWhile_mnemonic hmn]
    exact List.append_nil mn
  rw [assemble, stripComment_of_no_comment hcomment, trimBlanks_of_trimmed hline]
  simp only [htake]
  rw [List.append_assoc, List.drop_left, List.singleton_append, trimBlanks_space_cons, trimBlanks_of_trimmed hjoin,
    if_neg hjoin0, split_joinOperands h0 hops]

/-! ### Operands read back -/

theorem isTokenChar_hexDigit : ∀ v < 16, isTokenChar (hexDigit v) = true := by decide

theorem hexValue_hexDigit : ∀ v < 16, hexValue (hexDigit v) = some v := by decide

theorem isToken_regName (r : Reg) : isToken (regName r) = true := by
  rcases r with _ | _ | k | k | k | k | _
  case s0 | s1 | status => decide
  all_goals revert k; decide

theorem isToken_decDigit : ∀ n < 9, isToken [decDigit n] = true := by decide

theorem isToken_dataText (d : Word) : isToken (dataText d) = true := by
  have hhex : ∀ c ∈ hex16 d, isTokenChar c = true :=
    List.forall_mem_map.2 fun i _ => isTokenChar_hexDigit _ (Nat.mod_lt _ (by decide))
  simpa [isToken, dataText] using ⟨by decide, by decide, hhex⟩

theorem readReg_regName (r : Reg) : readReg? (regName r) = some r := by
  rcases r with _ | _ | k | k | k | k | _
  case s0 | s1 | status => decide
  all_goals revert k; decide

theorem readLane_decDigit (k : Lane) : readLane [decDigit k.val] = some k := by
  revert k; decide

theorem readCount_decDigit : ∀ n < 9, readCount [decDigit n] = some n := by decide

/-- The `k` low digits of `n`, most significant first, stand for `n mod 16^k`. -/
theorem ofHexDigits_digits (n k : Nat) :
    ofHexDigits ((List.range k).map fun i => n / 16 ^ (k - 1 - i) % 16) = n % 16 ^ k := by
  induction k generalizing n with
  | zero => simp [ofHexDigits, Nat.mod_one]
  | succ k ih =>
    have hinit : (List.range k).map (fun i => n / 16 ^ (k - i) % 16) =
        (List.range k).map fun i => n / 16 / 16 ^ (k - 1 - i) % 16 := by
      refine List.map_congr_left fun i hi => ?_
      have hk : k - i = k - 1 - i + 1 := by have := List.mem_range.1 hi; omega
      rw [hk, Nat.pow_succ', Nat.div_div_eq_div_mul]
    have hih := ih (n / 16)
    rw [ofHexDigits] at hih
    rw [ofHexDigits, List.range_succ, List.map_append, List.foldl_append]
    simp only [Nat.add_sub_cancel, hinit, hih, List.map_singleton, List.foldl_cons, List.foldl_nil, Nat.sub_self,
      Nat.pow_zero, Nat.div_one]
    rw [Nat.pow_succ', Nat.mod_mul, Nat.add_comm]

theorem hexValues_hex16 (d : Word) :
    hexValues (hex16 d) = some ((List.range 16).map fun i => d.toNat / 16 ^ (16 - 1 - i) % 16) := by
  rw [hexValues_eq_some_iff, hex16, List.map_map, List.map_map]
  exact List.map_congr_left fun i _ => hexValue_hexDigit _ (Nat.mod_lt _ (by decide))

theorem readData_dataText (d : Word) : readData (dataText d) = some d := by
  change readData ('0' :: 'x' :: hex16 d) = some d
  have hd : d.toNat % 16 ^ 16 = d.toNat := Nat.mod_eq_of_lt d.isLt
  simp only [readData, hexValues_hex16, ofHexDigits_digits, hd]
  simp [Config.hexPerWord]

/-! ### The line of a command -/

theorem isToken_mnemonic (i : Instr) : isToken (mnemonic i) = true := by
  cases i <;> rfl

theorem isToken_operandTexts {i : Instr} (hw : i.wf = true) : ∀ op ∈ operandTexts i, isToken op = true := by
  have hlane (k : Lane) : isToken [decDigit k.val] = true := isToken_decDigit k.val (by omega)
  cases i with
  | hashb n d =>
    have hn : n ≤ 8 := of_decide_eq_true hw
    simp [operandTexts, isToken_dataText, isToken_decDigit n (by omega)]
  | ldb k n d =>
    have hn : n ≤ 8 := of_decide_eq_true hw
    simp [operandTexts, isToken_dataText, hlane, isToken_decDigit n (by omega)]
  | _ => simp [operandTexts, isToken_dataText, isToken_regName, hlane]

theorem assembleParts_rdr (x : List Char) : assembleParts "RDR".toList [x] = (readReg? x).map .rdr := rfl

theorem assembleParts_wrr (x y : List Char) :
    assembleParts "WRR".toList [x, y] = (readReg? x).bind fun r => (readData y).map (.wrr r) := rfl

theorem assembleParts_mix (x : List Char) : assembleParts "MIX".toList [x] = (readData x).map .mix := rfl

theorem assembleParts_hashb (x y : List Char) :
    assembleParts "HASHB".toList [x, y] = (readCount x).bind fun n => (readData y).map (.hashb n) := rfl

theorem assembleParts_ldb (x y z : List Char) :
    assembleParts "LDB".toList [x, y, z] =
      (readLane x).bind fun k => (readCount y).bind fun n => (readData z).map (.ldb k n) := rfl

theorem assembleParts_xacc (x y : List Char) :
    assembleParts "XACC".toList [x, y] = (readLane x).bind fun k => (readData y).map (.xacc k) := rfl

/-- The mnemonic selects the command, and each operand reads back. -/
theorem assembleParts_of_command {i : Instr} (hw : i.wf = true) :
    assembleParts (mnemonic i) (operandTexts i) = some i := by
  cases i with
  | rdr r => rw [mnemonic, operandTexts, assembleParts_rdr, readReg_regName, Option.map_some]
  | wrr r d =>
    rw [mnemonic, operandTexts, assembleParts_wrr, readReg_regName, Option.bind_some, readData_dataText,
      Option.map_some]
  | mix d => rw [mnemonic, operandTexts, assembleParts_mix, readData_dataText, Option.map_some]
  | hashb n d =>
    have hn : n ≤ 8 := of_decide_eq_true hw
    rw [mnemonic, operandTexts, assembleParts_hashb, readCount_decDigit n (by omega), Option.bind_some,
      readData_dataText, Option.map_some]
  | ldb k n d =>
    have hn : n ≤ 8 := of_decide_eq_true hw
    rw [mnemonic, operandTexts, assembleParts_ldb, readLane_decDigit, Option.bind_some,
      readCount_decDigit n (by omega), Option.bind_some, readData_dataText, Option.map_some]
  | xacc k d =>
    rw [mnemonic, operandTexts, assembleParts_xacc, readLane_decDigit, Option.bind_some, readData_dataText,
      Option.map_some]
  | seed | dinit | dblk | hamd => rfl

theorem assemble_asmText {i : Instr} (hw : i.wf = true) : assemble (asmText i) = some i := by
  have hmn := isToken_mnemonic i
  have hparts : (assembleParts (mnemonic i) (operandTexts i)).filter Instr.wf = some i := by
    rw [assembleParts_of_command hw, Option.filter_some, if_pos hw]
  rw [asmText]
  split
  next h0 => rw [assemble_mnemonic hmn, ← h0, hparts]
  next h0 => rw [assemble_mnemonic_operands hmn h0 (isToken_operandTexts hw), hparts]

end Sys2Proof.Machine
end

section
/-! PROOFS. The statements of spec/30_encoding.md: the word and its fields, the two round trips, the table, the
responses, and the assembler line. -/

namespace Sys2Proof.Machine

/-- Settles O5: the fields of the encoded word pass every test of the decoder. -/
theorem decodeOfEncodeIsTheCommand : Obligations.DecodeOfEncodeIsTheCommand :=
  fun _ => decode_encode

/-- Settles O6: the fields a command does not carry were tested to be zero. -/
theorem encodeOfDecodeIsTheWord : Obligations.EncodeOfDecodeIsTheWord :=
  fun _ _ h => ⟨wf_of_decode h, encode_of_decode h⟩

/-- Settles O41: the run is the fold of the words' effects, and each effect adds one response. -/
theorem everyCommandWordIsAnsweredOnceInOrder : Obligations.EveryCommandWordIsAnsweredOnceInOrder := by
  intro ws s hs
  obtain ⟨rs, hrs, hcodes, hlegals⟩ := foldl_wordEffect_adds_responses ws s
  obtain ⟨hpending, hreset⟩ := foldl_wordEffect_ports ws s
  refine ⟨_, rs, run_presentWords ws s hs, hrs, ?_, hlegals, fun j => ?_, hpending, hreset.trans hs⟩
  · simpa using congrArg List.length hcodes
  · rw [← List.getElem?_map, hcodes, List.getElem?_map]
    refine Option.map_congr fun cw _ => ?_
    rcases hd : decode cw with (_ | _) | i <;> (rw [answerCode, hd]; rfl)

/-- Settles O58: the line is cut into the mnemonic and operands it was written from, and each reads back. -/
theorem assembleOfAsmTextIsTheCommand : Obligations.AssembleOfAsmTextIsTheCommand :=
  fun _ => assemble_asmText

/-- Settles O4: the word is its fields joined, and joining multiplies by the width of what follows. -/
theorem commandWordIsItsSevenFieldsInPlace : Obligations.CommandWordIsItsSevenFieldsInPlace := by
  intro cw
  conv_lhs => rw [← fields_join cw]
  simp only [toNat_append_eq_mul_add]
  omega

/-- Settles O7: row by row, the mask and the extra condition are the tests of the decoder. -/
theorem legalExactlyWhenMaskedMatchAndExtraConditionHold :
    Obligations.LegalExactlyWhenMaskedMatchAndExtraConditionHold :=
  fun _ hrow cw => decodes_to_row_iff hrow cw

/-- Settles O8: a word that fits a row has the row's opcode, and an opcode has one row. -/
theorem noWordFitsTwoRows : Obligations.NoWordFitsTwoRows := by
  intro row hrow row' hrow' cw h h'
  obtain ⟨hop, -⟩ := (masked_eq_pattern_iff hrow cw).1 h
  obtain ⟨hop', -⟩ := (masked_eq_pattern_iff hrow' cw).1 h'
  exact row_eq_of_opcode_eq row hrow row' hrow' (hop.symm.trans hop')

/-- Settles O9: the opcode test comes first, and what passes it decodes exactly when it meets a row. -/
theorem everyWordIsACommandOrOneOfTwoFaults : Obligations.EveryWordIsACommandOrOneOfTwoFaults := by
  refine ⟨fun cw => ?_, fun cw => ?_, by decide +kernel, by decide, by decide⟩
  · rw [decode_eq_illegalOpcode_iff, mem_assignedOpcodes_iff]
  · rw [decode_eq_illegalOperand_iff, mem_assignedOpcodes_iff]
    refine and_congr_right fun _ => ⟨fun h row hrow hfit => ?_, fun h i hd => ?_⟩
    · obtain ⟨i, hd, -⟩ := (decodes_to_row_iff hrow cw).2 hfit
      exact h i hd
    · obtain ⟨row, hrow, hop⟩ := exists_row_of_command i
      exact h row hrow ((decodes_to_row_iff hrow cw).1 ⟨i, hd, hop⟩)

/-- Settles O12: each answer is one packed word, whose number is its code and its value in their places. -/
theorem responseWordsAreCodeThenValue : Obligations.ResponseWordsAreCodeThenValue :=
  ⟨fun v _ => ⟨packResponse codeOk v, rfl, by rw [toNat_packResponse]; simp [codeOk]⟩,
   fun _ => ⟨packResponse (faultCode .illegalOpcode) 0#64, rfl, toNat_packResponse _ _⟩,
   fun _ => ⟨packResponse (faultCode .illegalOperand) 0#64, rfl, toNat_packResponse _ _⟩⟩

/-- Settles O10: each of the thirteen words is evaluated. -/
theorem workedEncodingsDecodeToTheirCommands : Obligations.WorkedEncodingsDecodeToTheirCommands := by
  unfold Obligations.WorkedEncodingsDecodeToTheirCommands
  decide

end Sys2Proof.Machine
end

section
/-! PROOFS. The mixer step register by register (40_bit_mixer.md R102), and the step over the word of a command whose
operands pass one test. -/

namespace Sys2Proof.Machine

/-! ### The mixer step, register by register -/

/-- R102 written out, with the shifts as numbers. -/
theorem mix_eq (x : Word) (m : Mixer) :
    mix x m = (m.s1 + m.s0,
      ⟨m.s0 ^^^ (x <<< 30),
       (m.s1 ^^^ (m.s1 <<< 23)) ^^^ m.s0 ^^^ ((m.s1 ^^^ (m.s1 <<< 23)) >>> 18) ^^^ (m.s0 >>> 5)⟩) := rfl

@[simp] theorem mix_s0 (x : Word) (m : Mixer) : (mix x m).2.s0 = m.s0 ^^^ (x <<< 30) := rfl

/-- A mixer step reads its input through `x <<< 30` alone. -/
theorem mix_congr {x y : Word} (h : x <<< 30 = y <<< 30) (m : Mixer) : mix x m = mix y m := by
  rw [mix_eq, mix_eq, h]

theorem mix_s0_getLsbD (x : Word) (m : Mixer) {i : Nat} (hi : i < 64) :
    (mix x m).2.s0.getLsbD i = (m.s0.getLsbD i ^^ (decide (30 ≤ i) && x.getLsbD (i - 30))) := by
  simp only [mix_s0, BitVec.getLsbD_xor, BitVec.getLsbD_shiftLeft, hi, decide_true, Bool.true_and, ← Nat.not_lt,
    decide_not]

/-- The shift discards bits 63:34 of the input (R105 (b)). -/
theorem shiftLeft_thirty_congr {x y : Word} (h : ∀ i, i ≤ 33 → x.getLsbD i = y.getLsbD i) :
    x <<< 30 = y <<< 30 := by
  apply BitVec.eq_of_getLsbD_eq
  intro i hi
  rw [BitVec.getLsbD_shiftLeft, BitVec.getLsbD_shiftLeft, h (i - 30) (by omega)]

/-- A byte loses no bit to the shift (R105 (e)). -/
theorem toNat_byte_shiftLeft_thirty {x : Word} (h : x.toNat ≤ 255) : (x <<< 30).toNat = x.toNat * 2 ^ 30 := by
  rw [BitVec.toNat_shiftLeft, Nat.shiftLeft_eq, Nat.mod_eq_of_lt (by omega)]

/-- Two steps with one input leave `S0` as it was (R105 (f)). -/
theorem mix_mix_s0 (x : Word) (m : Mixer) : (mix x (mix x m).2).2.s0 = m.s0 := by
  rw [mix_s0, mix_s0, BitVec.xor_assoc, BitVec.xor_self, BitVec.xor_zero]

/-! ### The step over a word whose operands pass one test -/

/-- Where the operands of an assigned opcode give one command under one condition, the word has that command's effect
when the must-be-zero fields are zero and the condition holds, and otherwise takes `ILLEGAL_OPERAND` (30_encoding.md
R78, R79). -/
theorem step_of_operand_test {cw : CommandWord} {i : Instr} {P : Prop} [Decidable P]
    (ha : opField cw ∈ assignedOpcodes)
    (ho : decodeOperands (opField cw) (rField cw) (lenField cw) (dataField cw) = if P then some i else none)
    {s : State} (hr : s.inReset = false) :
    step { s with pending := .command cw :: s.pending } =
      .next (if zerosOk cw = true ∧ P then commandEffect i s else raiseFault .illegalOperand s) := by
  by_cases h : zerosOk cw = true ∧ P
  · obtain ⟨hz, hp⟩ := h
    rw [if_pos hp] at ho
    rw [if_pos ⟨hz, hp⟩, step_of_decode_ok (decode_eq_ok ha hz ho) hr, exec_eq_effect]
  · have hrefused : zerosOk cw = true →
        decodeOperands (opField cw) (rField cw) (lenField cw) (dataField cw) = none :=
      fun hz => ho.trans (if_neg fun hp => h ⟨hz, hp⟩)
    rw [if_neg h, step_of_decode_error (decode_eq_illegalOperand ha hrefused) hr]

end Sys2Proof.Machine

namespace Sys2Proof

theorem decodeOperands_seed (r : BitVec 5) (len : BitVec 4) (d : Word) :
    decodeOperands 0x10#8 r len d = if r = 0#5 ∧ len = 0#4 ∧ d = 0#64 then some .seed else none := rfl

theorem decodeOperands_mix (r : BitVec 5) (len : BitVec 4) (d : Word) :
    decodeOperands 0x11#8 r len d = if r = 0#5 ∧ len = 0#4 then some (.mix d) else none := rfl

end Sys2Proof
end

section
/-! PROOFS. The statements of spec/40_bit_mixer.md: `SEED` and `MIX` from their words and as commands, and the laws of
the mixer step. -/

namespace Sys2Proof.Machine

/-- Settles O16: the operands are tested to be zero, and the command's effect sets the seeds. -/
theorem seedWordSetsTheSeedsOrFaults : Obligations.SeedWordSetsTheSeedsOrFaults := by
  intro s cw hs hop
  have ha : opField cw ∈ assignedOpcodes := by simp [hop, assignedOpcodes]
  have ho := decodeOperands_seed (rField cw) (lenField cw) (dataField cw)
  rw [← hop] at ho
  rw [step_of_operand_test ha ho hs, commandEffect_seed]
  rfl

/-- Settles O17: `r` and `len` are tested to be zero, and the command's effect is the mixer step on the data. -/
theorem mixWordDoesOneMixerStepOrFaults : Obligations.MixWordDoesOneMixerStepOrFaults := by
  intro s cw hs hop
  have ha : opField cw ∈ assignedOpcodes := by simp [hop, assignedOpcodes]
  have ho := decodeOperands_mix (rField cw) (lenField cw) (dataField cw)
  rw [← hop] at ho
  rw [step_of_operand_test ha ho hs, commandEffect_mix, mix_eq]

/-- Settles O33: the input reaches `S0` alone, as `x <<< 30` XORed in. -/
theorem mixerStepObeysItsLaws : Obligations.MixerStepObeysItsLaws := by
  refine ⟨fun _ _ _ => ⟨rfl, rfl⟩, fun x m _ => mix_s0_getLsbD x m,
    fun _ _ m h => mix_congr (shiftLeft_thirty_congr h) m, fun x m hx => ?_, mix_mix_s0, by decide⟩
  rw [mix_s0, BitVec.xor_comm, ← BitVec.xor_assoc, BitVec.xor_self, BitVec.zero_xor, toNat_byte_shiftLeft_thirty hx]

/-- Settles O26: the seeds and zeros the two commands write are those of reset. -/
theorem seedAndDinitComplete : Obligations.SeedAndDinitComplete := by
  refine fun s => ⟨?_, ?_⟩
  · rw [exec_eq_effect, commandEffect_seed]; rfl
  · rw [exec_eq_effect, commandEffect_dinit]; rfl

/-- Settles O27: the command's effect is the mixer step, written out. -/
theorem mixCompletesWithTheMixerStep : Obligations.MixCompletesWithTheMixerStep := by
  intro d s
  rw [exec_eq_effect, commandEffect_mix, mix_eq]

end Sys2Proof.Machine
end

section
/-! PROOFS. What one `hashBlock(d, n)` feeds the mixer, and what those steps leave (41_block_hasher.md R121, R123,
R124). -/

namespace Sys2Proof

theorem countOk_iff (n : Nat) : countOk n = true ↔ n ≤ 8 := decide_eq_true_iff

theorem decodeOperands_hashb (r : BitVec 5) (len : BitVec 4) (d : Word) :
    decodeOperands 0x20#8 r len d = if r = 0#5 ∧ len.toNat ≤ 8 then some (.hashb len.toNat d) else none := rfl

end Sys2Proof

namespace Sys2Proof.Machine

/-! ### The bytes fed to the mixer -/

theorem wideBytes_getElem? (d : Word) {n i : Nat} (h : i < n) :
    (wideBytes d n)[i]? = some (zextByte (byteOf d i)) := by
  rw [wideBytes, List.getElem?_map, List.getElem?_range h, Option.map_some]

theorem mem_hashFeed {x d : Word} {n : Nat} : x ∈ hashFeed d n ↔ ∃ i < n, zextByte (byteOf d i) = x := by
  simp [hashFeed, wideBytes]

@[simp] theorem hashFeed_length (d : Word) (n : Nat) : (hashFeed d n).length = 2 * n := by
  rw [hashFeed, List.length_append, List.length_reverse, wideBytes_length, Nat.two_mul]

theorem hashFeed_zero (d : Word) : hashFeed d 0 = [] := rfl

/-- The last input of the first traversal is the last byte. -/
theorem hashFeed_getElem?_pred (d : Word) {n : Nat} (hn : 1 ≤ n) :
    (hashFeed d n)[n - 1]? = some (zextByte (byteOf d (n - 1))) := by
  rw [hashFeed, List.getElem?_append_left (by rw [wideBytes_length]; omega), wideBytes_getElem? d (by omega)]

/-- The first input of the second traversal is the last byte. -/
theorem hashFeed_getElem?_self (d : Word) {n : Nat} (hn : 1 ≤ n) :
    (hashFeed d n)[n]? = some (zextByte (byteOf d (n - 1))) := by
  rw [hashFeed, List.getElem?_append_right (wideBytes_length d n).le, wideBytes_length,
    List.getElem?_reverse (by rw [wideBytes_length]; omega), wideBytes_length, Nat.sub_self,
    wideBytes_getElem? d (by omega), Nat.sub_zero]

theorem hashFeed_congr {d d' : Word} {n : Nat} (h : ∀ i, i < n → byteOf d i = byteOf d' i) :
    hashFeed d n = hashFeed d' n := by
  have hbytes : wideBytes d n = wideBytes d' n :=
    List.map_congr_left fun i hi => by rw [h i (List.mem_range.mp hi)]
  rw [hashFeed, hashFeed, hbytes]

/-- The feed over the lane numbers of the two traversals, each lane shifted down and masked. -/
theorem hashFeed_eq_map (d : Word) (n : Nat) :
    hashFeed d n = (List.range n ++ (List.range n).reverse).map fun i => (d >>> (8 * i)) &&& 0xff#64 := by
  simp only [hashFeed, wideBytes, shift_and_eq_zextByte, List.map_append, List.map_reverse]

/-! ### What the steps leave -/

theorem hashBlock_eq_foldl (d : Word) (n : Nat) (m : Mixer) :
    hashBlock d n m = (hashFeed d n).foldl
      (fun (acc : Word × Mixer) x => (acc.1 ^^^ (mix x acc.2).1, (mix x acc.2).2)) (0#64, m) :=
  (foldl_mix _ _ _).symm

theorem hashBlock_congr {d d' : Word} {n : Nat} (h : ∀ i, i < n → byteOf d i = byteOf d' i) (m : Mixer) :
    hashBlock d n m = hashBlock d' n m := by
  rw [hashBlock, hashFeed_congr h, hashBlock]

theorem hashBlock_zero (d : Word) (m : Mixer) : hashBlock d 0 m = (0#64, m) := rfl

/-- Each input of the first traversal is XORed out of `S0` again by its twin in the second. -/
theorem mixStates_append_reverse_s0 (xs : List Word) (m : Mixer) :
    (mixStates (xs ++ xs.reverse) m).s0 = m.s0 := by
  induction xs generalizing m with
  | nil => rfl
  | cons x xs ih =>
    have hsplit : x :: xs ++ (x :: xs).reverse = x :: ((xs ++ xs.reverse) ++ [x]) := by simp
    rw [hsplit, mixStates, mixStates_append, mixStates, mixStates, mix_s0, ih, ← mix_s0, mix_mix_s0]

@[simp] theorem hashBlock_s0 (d : Word) (n : Nat) (m : Mixer) : (hashBlock d n m).2.s0 = m.s0 :=
  mixStates_append_reverse_s0 (wideBytes d n) m

/-- The first output is that of the Mixer State alone. -/
theorem mixOutputs_head? {xs : List Word} (h : 0 < xs.length) (m : Mixer) :
    (mixOutputs xs m).head? = some (m.s1 + m.s0) := by
  cases xs with
  | nil => cases h
  | cons x xs => rfl

/-- Zero bytes keep the zero Mixer State and the zero result through every step. -/
theorem hashBlock_fixed_zero {d : Word} {n : Nat} (h : ∀ i, i < n → byteOf d i = 0#8) :
    hashBlock d n ⟨0#64, 0#64⟩ = (0#64, ⟨0#64, 0#64⟩) := by
  rw [hashBlock_eq_foldl]
  refine List.foldlRecOn (motive := (· = ((0#64, ⟨0#64, 0#64⟩) : Word × Mixer))) _ _ rfl fun acc hacc x hx => ?_
  obtain ⟨i, hi, rfl⟩ := mem_hashFeed.mp hx
  rw [hacc, h i hi]
  rfl

/-! ### The eight calls of a block -/

theorem blockHashes_s0 (b : Lanes) (m : Mixer) : (blockHashes b m).mixer.s0 = m.s0 := by
  simp [blockHashes]

theorem blockFeed_length (b : Lanes) : (blockFeed b).length = 128 := by
  simp [blockFeed, Config.subLen]

/-- The eight calls, each on the state the one before left, are the steps over their joined feeds. -/
theorem blockHashes_mixer (b : Lanes) (m : Mixer) : (blockHashes b m).mixer = mixStates (blockFeed b) m := by
  simp [blockHashes, hashBlock, blockFeed, mixStates_append]

/-! ### The Mixer State after a command -/

theorem mixFeed_hashb {n : Nat} (hn : countOk n = true) (d : Word) (s : State) :
    mixFeed (.hashb n d) s = hashFeed d n := if_pos hn

/-- A term that is no legal command feeds the mixer nothing. -/
theorem mixFeed_of_not_wf {i : Instr} (hw : i.wf = false) (s : State) : mixFeed i s = [] := by
  cases i with
  | wrr r d => rfl
  | hashb n d =>
    have hn : countOk n = false := hw
    simp only [mixFeed, hn, Bool.false_eq_true, if_false]
  | ldb k n d => rfl
  | _ => cases hw

end Sys2Proof.Machine
end

section
/-! PROOFS. The statements of spec/41_block_hasher.md: `HASHB` from its word and as a command, the laws of the Block
Hasher, and how much mixer work each command does. -/

namespace Sys2Proof.Machine

/-- Settles O18: `r` and `len` are tested, and the test makes the count one that the command's effect hashes. -/
theorem hashbWordHashesItsBytesOrFaults : Obligations.HashbWordHashesItsBytesOrFaults := by
  intro s cw hs hop
  have ha : opField cw ∈ assignedOpcodes := by simp [hop, assignedOpcodes]
  have ho := decodeOperands_hashb (rField cw) (lenField cw) (dataField cw)
  rw [← hop] at ho
  rw [step_of_operand_test ha ho hs]
  exact congrArg _ (ite_congr rfl
    (fun ⟨_, _, hn⟩ => commandEffect_hashb ((countOk_iff _).mpr hn) _ _) fun _ => rfl)

/-- Settles O28: the running XOR over the feed is the running XOR over the lanes the feed is read from. -/
theorem hashbCompletesAsTheTwoTraversals : Obligations.HashbCompletesAsTheTwoTraversals := by
  refine ⟨fun n d s hn => ?_, fun n d s hn =>
    exec_of_not_wf (i := .hashb n d) (decide_eq_false (Nat.not_le.mpr hn)) s⟩
  rw [exec_eq_effect, commandEffect_hashb ((countOk_iff n).mpr hn), hashBlock_eq_foldl, hashFeed_eq_map,
    List.foldl_map]

/-- Settles O30: the two effects, and the eight calls each restore `S0`. -/
theorem dblkAndHamdCompleteWithTheirFrames : Obligations.DblkAndHamdCompleteWithTheirFrames := by
  refine fun s => ⟨⟨commandEffect .dblk s, exec_eq_effect _ _, ?_⟩, exec_eq_effect _ _⟩
  rw [commandEffect_dblk]
  exact ⟨rfl, rfl, rfl, rfl, blockHashes_s0 s.b s.mixer, rfl, rfl, rfl, rfl, rfl⟩

/-- Settles O34, law by law, from the shape of the feed and of the mixer step. -/
theorem hashBlockObeysItsLaws : Obligations.HashBlockObeysItsLaws :=
  ⟨hashBlock_s0,
    fun d n m hn => mixOutputs_head? (by rw [hashFeed_length]; omega) m,
    fun d n hn => ⟨hashFeed_getElem?_pred d hn, hashFeed_getElem?_self d hn⟩,
    fun d n hn => by rw [hashFeed_length]; omega,
    fun _ _ => hashBlock_fixed_zero,
    fun _ _ _ m h => hashBlock_congr h m⟩

/-- Settles O35: the lengths of the feeds; and the effect of each command runs the mixer over its feed. -/
theorem mixerWorkPerCommandIsTheStatedCount : Obligations.MixerWorkPerCommandIsTheStatedCount := by
  refine ⟨fun i s hw => ?_, fun d m => ⟨hashFeed_zero d, hashBlock_zero d m⟩, fun i s t h => ?_⟩
  · cases i with
    | hashb n d => rw [mixSteps, mixFeed_hashb hw, hashFeed_length]
    | dblk => exact blockFeed_length s.b
    | _ => rfl
  · obtain rfl := eq_commandEffect_of_exec h
    cases hw : i.wf with
    | false =>
      rw [commandEffect_of_not_wf hw, mixFeed_of_not_wf hw]
      split <;> trivial
    | true =>
      cases i with
      | wrr r d =>
        cases r with
        | s0 | s1 => trivial
        | _ => rfl
      | seed | dinit => trivial
      | hashb n d => rw [commandEffect_hashb hw, mixFeed_hashb hw]; rfl
      | ldb k n d => rw [commandEffect_ldb hw]; rfl
      | dblk => exact blockHashes_mixer s.b s.mixer
      | _ => rfl

end Sys2Proof.Machine
end

section
/-! PROOFS. A sequence of legal commands as one effect: what the host gets back for it, and what it leaves alone
(70_reset_and_hazards.md R233, R234). -/

namespace Sys2Proof.Machine

/-- The state the commands `is` leave, one after another. -/
def runCommands (is : List Instr) (s : State) : State := is.foldl (fun t i => commandEffect i t) s

@[simp] theorem runCommands_nil (s : State) : runCommands [] s = s := rfl

@[simp] theorem runCommands_cons (i : Instr) (is : List Instr) (s : State) :
    runCommands (i :: is) s = runCommands is (commandEffect i s) := rfl

@[simp] theorem runCommands_append (is js : List Instr) (s : State) :
    runCommands (is ++ js) s = runCommands js (runCommands is s) := List.foldl_append

section
variable {is : List Instr} (hw : ∀ i ∈ is, i.wf = true)
include hw

/-- The words of legal commands have the commands' effects. -/
theorem foldl_wordEffect_encode (s : State) :
    (is.map encode).foldl (fun t cw => wordEffect cw t) s = runCommands is s := by
  rw [List.foldl_map]
  exact List.foldl_ext _ _ _ fun t i hi => wordEffect_ok (decode_encode (hw i hi)) t

theorem exchange_eq_runCommands {s : State} (hs : s.inReset = false) :
    exchange is s = some ((runCommands is s).responses.drop s.responses.length, runCommands is s) := by
  rw [exchange_eq is s hs, foldl_wordEffect_encode hw]

theorem runCommands_pending (s : State) : (runCommands is s).pending = s.pending := by
  rw [← foldl_wordEffect_encode hw]
  exact (foldl_wordEffect_ports _ s).1

/-- Every legal command is answered `OK`. -/
theorem runCommands_responses (s : State) :
    ∃ rs, (runCommands is s).responses = s.responses ++ rs ∧ ∀ rw ∈ rs, responseCode rw = codeOk := by
  obtain ⟨rs, hrs, hcodes, -⟩ := foldl_wordEffect_adds_responses (is.map encode) s
  refine ⟨rs, by rw [← foldl_wordEffect_encode hw, hrs], fun rw hrw => ?_⟩
  have hmem : responseCode rw ∈ (is.map encode).map answerCode := hcodes ▸ List.mem_map_of_mem hrw
  obtain ⟨cw, hcw, hcode⟩ := List.mem_map.mp hmem
  obtain ⟨i, hi, rfl⟩ := List.mem_map.mp hcw
  rw [← hcode, answerCode, decode_encode (hw i hi)]

theorem runCommands_status (s : State) : (runCommands is s).status = s.status :=
  List.foldlRecOn (motive := fun t => t.status = s.status) _ _ rfl fun t ht i hi =>
    (commandEffect_status_of_wf (hw i hi) t).trans ht

end

theorem hammingRegisters_runCommands {is : List Instr} (hn : ∀ i ∈ is, writesHamming i = false) (s : State) :
    hammingRegisters (runCommands is s) = hammingRegisters s :=
  List.foldlRecOn (motive := fun t => hammingRegisters t = hammingRegisters s) _ _ rfl fun t ht i hi =>
    (hammingRegisters_commandEffect_of_not_writes (hn i hi) t).trans ht

end Sys2Proof.Machine
end

section
/-! PROOFS. The bytes of a message in the sub-blocks of its blocks: what the four loads of a block leave in `B` is the
zero-padded block (42_digest_accumulator.md R155, R156). -/

namespace Sys2Proof.Machine

/-! ### Byte lanes of a sum of bytes -/

/-- Lane `i` of bytes summed at their lanes is byte `i`. -/
theorem sum_bytes_div_mod {a : Nat → Nat} (ha : ∀ j, a j < 2 ^ 8) (n i : Nat) :
    ((List.range n).map fun j => a j * 2 ^ (8 * j)).sum / 2 ^ (8 * i) % 2 ^ 8 = if i < n then a i else 0 := by
  induction n generalizing a i with
  | zero => simp
  | succ n ih =>
    have hshift : ((List.range (n + 1)).map fun j => a j * 2 ^ (8 * j)).sum =
        a 0 + 2 ^ 8 * ((List.range n).map fun j => a (j + 1) * 2 ^ (8 * j)).sum := by
      rw [List.range_succ_eq_map, List.map_cons, List.sum_cons, List.map_map, ← List.sum_map_mul_left]
      refine congrArg₂ (· + ·) (by simp) (congrArg List.sum (List.map_congr_left fun j _ => ?_))
      simp only [Function.comp_apply, Nat.succ_eq_add_one, Nat.mul_add, Nat.pow_add]
      ring
    rw [hshift]
    cases i with
    | zero => simpa using ha 0
    | succ i =>
      rw [Nat.mul_succ, Nat.add_comm (8 * i), Nat.pow_add, ← Nat.div_div_eq_div_mul,
        Nat.add_mul_div_left _ _ (by decide), Nat.div_eq_of_lt (ha 0), Nat.zero_add, ih fun j => ha (j + 1)]
      simp only [Nat.add_lt_add_iff_right]

/-- A lane of a 64-bit word, as a number. -/
theorem toNat_byteOf_ofNat (v : Nat) {i : Nat} (hi : i < 8) :
    (byteOf (BitVec.ofNat 64 v) i).toNat = v / 2 ^ (8 * i) % 2 ^ 8 := by
  have hsplit : 2 ^ 64 = 2 ^ (8 * i) * 2 ^ (64 - 8 * i) := by rw [← Nat.pow_add]; congr 1; omega
  have hdvd : 2 ^ 8 ∣ 2 ^ (64 - 8 * i) := Nat.pow_dvd_pow 2 (by omega)
  rw [byteOf, BitVec.extractLsb'_toNat, BitVec.toNat_ofNat, Nat.shiftRight_eq_div_pow, hsplit,
    Nat.mod_mul_right_div_self, Nat.mod_mod_of_dvd _ hdvd]

/-- Two words with the same eight lanes are equal. -/
theorem eq_of_byteOf_eq {x y : Word} (h : ∀ i, i < 8 → byteOf x i = byteOf y i) : x = y := by
  apply BitVec.eq_of_getLsbD_eq
  intro j hj
  have hlane := congrArg (fun c : Byte => c.getLsbD (j % 8)) (h (j / 8) (by omega))
  have hmod : j % 8 < 8 := Nat.mod_lt _ (by decide)
  simpa only [byteOf, BitVec.getLsbD_extractLsb', hmod, decide_true, Bool.true_and, Nat.div_add_mod] using hlane

/-! ### The words the host cuts from a message -/

theorem byteOf_subData (msg : List Byte) (off n : Nat) {i : Nat} (hi : i < 8) :
    byteOf (subData msg off n) i = if i < n then msg.getD (off + i) 0#8 else 0#8 := by
  apply BitVec.eq_of_toNat_eq
  rw [subData, toNat_byteOf_ofNat _ hi,
    sum_bytes_div_mod (a := fun j => (msg.getD (off + j) 0#8).toNat) fun j => (msg.getD (off + j) 0#8).isLt]
  split <;> rfl

/-- A count that stops at the end of the message leaves out zeros only: the word loaded is the padded one. -/
theorem keep_subData_subCount (msg : List Byte) (off : Nat) :
    keep (subData msg off (subCount msg.length off)) (subCount msg.length off) = subData msg off 8 := by
  refine eq_of_byteOf_eq fun i hi => ?_
  rw [byteOf_keep _ hi, byteOf_subData _ _ _ hi, byteOf_subData _ _ _ hi, if_pos hi]
  split
  · rfl
  next hn =>
    have hcount : subCount msg.length off = min 8 (msg.length - off) := rfl
    rw [List.getD_eq_default _ _ (by omega)]

theorem paddedBlock_get (msg : List Byte) (i : Nat) (k : Lane) : (paddedBlock msg i).get k = paddedWord msg i k := by
  match k with
  | 0 | 1 | 2 | 3 => rfl

theorem byteOf_paddedWord (msg : List Byte) (i : Nat) (k : Lane) {j : Nat} (hj : j < 8) :
    byteOf (paddedWord msg i k) j = msg.getD (32 * i + 8 * k.val + j) 0#8 := by
  rw [paddedWord, byteOf_subData _ _ _ hj]
  exact if_pos hj

/-! ### Zero bytes at the end of a message -/

theorem getD_append_zeros (msg : List Byte) (n j : Nat) :
    (msg ++ List.replicate n 0#8).getD j 0#8 = msg.getD j 0#8 := by
  by_cases hj : j < msg.length
  · exact List.getD_append _ _ _ _ hj
  · rw [List.getD_append_right _ _ _ _ (by omega), List.getD_eq_default msg _ (by omega)]
    by_cases hn : j - msg.length < n
    · exact List.getD_replicate _ hn
    · exact List.getD_eq_default _ _ (by simpa using hn)

theorem paddedBlock_append_zeros (msg : List Byte) (n i : Nat) :
    paddedBlock (msg ++ List.replicate n 0#8) i = paddedBlock msg i := by
  simp only [paddedBlock, paddedWord, subData, getD_append_zeros]

theorem digestOf_append_zeros {msg : List Byte} {n : Nat} (h : numBlocks (msg.length + n) = numBlocks msg.length) :
    digestOf (msg ++ List.replicate n 0#8) = digestOf msg := by
  have hlen : numBlocks (msg ++ List.replicate n 0#8).length = numBlocks msg.length := by simpa using h
  have hblock : digestBlock (msg ++ List.replicate n 0#8) = digestBlock msg := by
    funext x i
    rw [digestBlock, paddedBlock_append_zeros, digestBlock]
  rw [digestOf, hlen, hblock, digestOf]

/-! ### The number of blocks -/

theorem numBlocks_eq (len : Nat) : numBlocks len = max 1 ((len + 31) / 32) := rfl

theorem one_le_numBlocks (len : Nat) : 1 ≤ numBlocks len := Nat.le_max_left _ _

/-! ### The four loads of a block -/

theorem countOk_subCount (len off : Nat) : countOk (subCount len off) = true :=
  (countOk_iff _).mpr (Nat.min_le_left _ _)

theorem loadCommand_wf (msg : List Byte) (i : Nat) (k : Lane) : (loadCommand msg i k).wf = true :=
  countOk_subCount _ _

theorem commandEffect_loadCommand (msg : List Byte) (i : Nat) (k : Lane) (s : State) :
    commandEffect (loadCommand msg i k) s = respond 0#64 { s with b := s.b.set k (paddedWord msg i k) } := by
  rw [loadCommand, commandEffect_ldb (countOk_subCount _ _), keep_subData_subCount]
  rfl

theorem loads_wf (msg : List Byte) (i : Nat) : ∀ c ∈ lanes.map (loadCommand msg i), c.wf = true :=
  List.forall_mem_map.2 fun k _ => loadCommand_wf msg i k

/-- Four writes, one at each position, leave nothing of the group. -/
theorem Lanes.set_each (v : Lanes) (x0 x1 x2 x3 : Word) :
    (((v.set 0 x0).set 1 x1).set 2 x2).set 3 x3 = ⟨x0, x1, x2, x3⟩ := rfl

/-- Whatever `B` held, the four loads overwrite it with the padded block, and write nothing else. -/
theorem runCommands_loads (msg : List Byte) (i : Nat) (s : State) :
    ∃ rs, runCommands (lanes.map (loadCommand msg i)) s = { s with b := paddedBlock msg i, responses := rs } := by
  simp only [lanes, List.map_cons, List.map_nil, runCommands_cons, runCommands_nil, commandEffect_loadCommand,
    respond, emit, Lanes.set_each, paddedBlock]
  exact ⟨_, rfl⟩

end Sys2Proof.Machine
end

section
/-! PROOFS. `DIGEST` run on the core, command by command: the blocks keep the Mixer State and the accumulators at those
of the document's algorithm, and the four reads answer the accumulators (42_digest_accumulator.md R157 to R159). -/

namespace Sys2Proof.Machine

/-! ### The commands of `DIGEST` -/

/-- A property of the commands `DIGEST` is made of holds of each command it sends. -/
theorem forall_mem_digestCommands {P : Instr → Prop} {msg : List Byte} (hinit : P .dinit)
    (hload : ∀ i k, P (loadCommand msg i k)) (hblk : P .dblk) (hread : ∀ k, P (rdh k)) :
    ∀ c ∈ digestCommands msg, P c := by
  simp only [digestCommands, blockCommands, List.forall_mem_cons, List.forall_mem_append, List.forall_mem_flatMap,
    List.forall_mem_map, List.not_mem_nil, false_imp_iff, implies_true, and_true]
  exact ⟨hinit, fun i _ => ⟨fun k _ => hload i k, hblk⟩, fun k _ => hread k⟩

theorem digestCommands_wf (msg : List Byte) : ∀ c ∈ digestCommands msg, c.wf = true :=
  forall_mem_digestCommands rfl (loadCommand_wf msg) rfl fun _ => rfl

theorem digestCommands_keep_operands (msg : List Byte) : ∀ c ∈ digestCommands msg, writesHamming c = false :=
  forall_mem_digestCommands rfl (fun _ _ => rfl) rfl fun _ => rfl

/-! ### The blocks and the reads -/

theorem runCommands_block (msg : List Byte) (i : Nat) (s : State) :
    digestRegisters (runCommands (blockCommands msg i) s) =
      ((digestBlock msg (s.mixer, s.h) i).1, (digestBlock msg (s.mixer, s.h) i).2, paddedBlock msg i) := by
  obtain ⟨rs, hloads⟩ := runCommands_loads msg i s
  rw [blockCommands, runCommands_append, hloads]
  rfl

/-- After `n + 1` blocks: the algorithm's Mixer State and accumulators, and the last block still in `B`. -/
theorem runCommands_blocks (msg : List Byte) (n : Nat) (s : State) :
    digestRegisters (runCommands ((List.range (n + 1)).flatMap (blockCommands msg)) s) =
      (((List.range (n + 1)).foldl (digestBlock msg) (s.mixer, s.h)).1,
       ((List.range (n + 1)).foldl (digestBlock msg) (s.mixer, s.h)).2, paddedBlock msg n) := by
  induction n with
  | zero => exact runCommands_block msg 0 s
  | succ n ih =>
    obtain ⟨hm, hrest⟩ := Prod.mk.inj ih
    obtain ⟨hh, -⟩ := Prod.mk.inj hrest
    rw [List.range_succ, List.flatMap_append, List.flatMap_singleton, runCommands_append, runCommands_block, hm, hh,
      List.foldl_append]
    rfl

/-- The four reads answer the accumulators in order and change no register. -/
theorem runCommands_reads (s : State) :
    runCommands (lanes.map rdh) s = { s with responses := s.responses ++
      [packResponse codeOk s.h.l0, packResponse codeOk s.h.l1, packResponse codeOk s.h.l2,
       packResponse codeOk s.h.l3] } := by
  simp only [lanes, List.map_cons, List.map_nil, runCommands_cons, runCommands_nil, rdh, commandEffect_rdr]
  simp [respond, emit, readReg, Lanes.get]

theorem renderReads_of_lanes (h : Lanes) :
    renderReads [packResponse codeOk h.l0, packResponse codeOk h.l1, packResponse codeOk h.l2,
      packResponse codeOk h.l3] = some (render h) := by
  simp only [renderReads, responseValue_packResponse]

/-- What `DIGEST` sends before its four reads. -/
def accumulateCommands (msg : List Byte) : List Instr :=
  .dinit :: (List.range (numBlocks msg.length)).flatMap (blockCommands msg)

theorem digestCommands_eq (msg : List Byte) : digestCommands msg = accumulateCommands msg ++ lanes.map rdh := rfl

theorem accumulateCommands_wf (msg : List Byte) : ∀ c ∈ accumulateCommands msg, c.wf = true :=
  fun c hc => digestCommands_wf msg c (digestCommands_eq msg ▸ List.mem_append_left _ hc)

/-- Whatever the registers held, they hold the document's digest of the message. -/
theorem runCommands_accumulateCommands (msg : List Byte) (s : State) :
    digestRegisters (runCommands (accumulateCommands msg) s) =
      ((digestOf msg).1, (digestOf msg).2, paddedBlock msg (numBlocks msg.length - 1)) := by
  have hn : numBlocks msg.length = numBlocks msg.length - 1 + 1 := (Nat.sub_add_cancel (one_le_numBlocks _)).symm
  have h := runCommands_blocks msg (numBlocks msg.length - 1) (commandEffect .dinit s)
  rwa [← hn] at h

theorem digestRegisters_digestCommands (msg : List Byte) (s : State) :
    digestRegisters (runCommands (digestCommands msg) s) =
      ((digestOf msg).1, (digestOf msg).2, paddedBlock msg (numBlocks msg.length - 1)) := by
  rw [digestCommands_eq, runCommands_append, runCommands_reads]
  exact runCommands_accumulateCommands msg s

/-- The last four responses are the reads, and they render to the digest. -/
theorem renderReads_digestCommands (msg : List Byte) (s : State) :
    ∃ rs, (runCommands (digestCommands msg) s).responses = s.responses ++ rs ∧
      renderReads (rs.drop (rs.length - Config.nSub)) = some (render (digestOf msg).2) := by
  obtain ⟨rs, hrs, -⟩ := runCommands_responses (accumulateCommands_wf msg) s
  obtain ⟨-, hrest⟩ := Prod.mk.inj (runCommands_accumulateCommands msg s)
  obtain ⟨hh, -⟩ := Prod.mk.inj hrest
  rw [digestCommands_eq, runCommands_append, runCommands_reads, hrs, hh]
  refine ⟨_, List.append_assoc _ _ _, ?_⟩
  rw [List.length_append, List.drop_left' (by simp [Config.nSub])]
  exact renderReads_of_lanes _

theorem runDigest_eq (msg : List Byte) {s : State} (hs : s.inReset = false) :
    runDigest msg s = some (render (digestOf msg).2, runCommands (digestCommands msg) s) := by
  obtain ⟨rs, hrs, hrender⟩ := renderReads_digestCommands msg s
  simp only [runDigest, exchange_eq_runCommands (digestCommands_wf msg) hs, hrs, List.drop_left, hrender,
    Option.map_some]

/-! ### The text, and the Mixer State a digest ends with -/

theorem hexDigit_mem : ∀ v < 16, hexDigit v ∈ "0123456789abcdef".toList := by decide

theorem mem_hex16 (v : Word) : ∀ c ∈ hex16 v, c ∈ "0123456789abcdef".toList :=
  List.forall_mem_map.2 fun _ _ => hexDigit_mem _ (Nat.mod_lt _ (by decide))

@[simp] theorem hex16_length (v : Word) : (hex16 v).length = 16 := by simp [hex16, Config.hexPerWord]

theorem render_length (h : Lanes) : (render h).length = 64 := by simp [render]

theorem mem_render (h : Lanes) : ∀ c ∈ render h, c ∈ "0123456789abcdef".toList := by
  simp only [render, List.forall_mem_append]
  exact ⟨⟨⟨mem_hex16 _, mem_hex16 _⟩, mem_hex16 _⟩, mem_hex16 _⟩

/-- Every block restores `S0`, so it stays at its seed (42_digest_accumulator.md R159). -/
theorem digestOf_s0 (msg : List Byte) : (digestOf msg).1.s0 = Config.seed0 :=
  List.foldlRecOn (motive := fun (x : Mixer × Lanes) => x.1.s0 = Config.seed0) _ _ rfl fun x hx _ _ =>
    (blockHashes_s0 _ x.1).trans hx

end Sys2Proof.Machine
end

section
/-! PROOFS. The words of `DINIT`, `LDB`, `DBLK` and `XACC` at the decoder, their effects as writes of one register, and
`DBLK` as the eight block hashes it is made of (42_digest_accumulator.md R141 to R147). -/

namespace Sys2Proof

theorem decodeOperands_dinit (r : BitVec 5) (len : BitVec 4) (d : Word) :
    decodeOperands 0x30#8 r len d = if r = 0#5 ∧ len = 0#4 ∧ d = 0#64 then some .dinit else none := rfl

theorem decodeOperands_ldb (r : BitVec 5) (len : BitVec 4) (d : Word) :
    decodeOperands 0x31#8 r len d = if len.toNat ≤ 8 then (laneOfField r).map (.ldb · len.toNat d) else none := rfl

theorem decodeOperands_dblk (r : BitVec 5) (len : BitVec 4) (d : Word) :
    decodeOperands 0x32#8 r len d = if r = 0#5 ∧ len = 0#4 ∧ d = 0#64 then some .dblk else none := rfl

theorem decodeOperands_xacc (r : BitVec 5) (len : BitVec 4) (d : Word) :
    decodeOperands 0x33#8 r len d = if len = 0#4 then (laneOfField r).map (.xacc · d) else none := rfl

end Sys2Proof

namespace Sys2Proof.Machine

section
variable {cw : CommandWord} {op : BitVec 8} {P : Prop} [Decidable P] {s : State}

/-- `step_of_operand_test` for a word whose opcode is given. -/
theorem step_of_opcode_test {i : Instr} (hop : opField cw = op) (ha : op ∈ assignedOpcodes)
    (ho : decodeOperands op (rField cw) (lenField cw) (dataField cw) = if P then some i else none)
    (hr : s.inReset = false) :
    step { s with pending := .command cw :: s.pending } =
      .next (if zerosOk cw = true ∧ P then commandEffect i s else raiseFault .illegalOperand s) := by
  subst hop
  exact step_of_operand_test ha ho hr

/-- Where `r` is a lane and the other operands are put to one test, the word has the effect of its command on that lane
when the must-be-zero fields are zero, the test holds and `r` is 0..3, and otherwise takes `ILLEGAL_OPERAND`
(30_encoding.md R72, R78, R79). -/
theorem step_of_lane_test {i : Lane → Instr} (hop : opField cw = op) (ha : op ∈ assignedOpcodes)
    (ho : decodeOperands op (rField cw) (lenField cw) (dataField cw) =
      if P then (laneOfField (rField cw)).map i else none)
    (hr : s.inReset = false) :
    step { s with pending := .command cw :: s.pending } =
      .next (if h : zerosOk cw = true ∧ P ∧ (rField cw).toNat < 4 then
          commandEffect (i ⟨(rField cw).toNat, h.2.2⟩) s
        else raiseFault .illegalOperand s) := by
  by_cases hk : (rField cw).toNat < 4
  · have hlane : laneOfField (rField cw) = some ⟨(rField cw).toNat, hk⟩ := dif_pos hk
    rw [hlane, Option.map_some] at ho
    rw [step_of_opcode_test hop ha ho hr]
    simp only [hk, and_true]
    rfl
  · have hlane : laneOfField (rField cw) = none := dif_neg hk
    rw [hlane, Option.map_none, ite_self] at ho
    subst hop
    rw [dif_neg fun h => hk h.2.2, step_of_decode_error (decode_eq_illegalOperand ha fun _ => ho) hr]

end

/-- `LDB` is a write of `B[k]`. -/
theorem exec_ldb {n : Nat} (hn : countOk n = true) (k : Lane) (d : Word) (s : State) :
    exec (.ldb k n d) s = .next (respond 0#64 (writeReg (.b k) (keep d n) s)) := by
  rw [exec_eq_effect, commandEffect_ldb hn]
  rfl

/-- `XACC` is a write of `H[k]`. -/
theorem exec_xacc (k : Lane) (d : Word) (s : State) :
    exec (.xacc k d) s = .next (respond 0#64 (writeReg (.h k) (readReg (.h k) s ^^^ d) s)) := rfl

/-! ### A block hash by hand (96_more_vectors.md P7) -/

theorem exec_hashb_eight (d : Word) (s : State) :
    exec (.hashb Config.subLen d) s =
      .next (respond (hashBlock d 8 s.mixer).1 { s with mixer := (hashBlock d 8 s.mixer).2 }) := by
  rw [exec_eq_effect, commandEffect_hashb rfl]
  rfl

/-- `HASHB` and `XACC` together move the Mixer State on and XOR the result into `H[k]`. -/
theorem foldHash_eq (k : Lane) (d : Word) (s : State) :
    ∃ rs, foldHash k d s = some { s with
      mixer := (hashBlock d 8 s.mixer).2
      h := s.h.set k (s.h.get k ^^^ (hashBlock d 8 s.mixer).1)
      responses := rs } := by
  simp only [foldHash, exec_hashb_eight, respond_responses, List.getLast?_append, List.getLast?_singleton,
    Option.some_or, responseValue_packResponse, exec_xacc]
  exact ⟨_, rfl⟩

/-- The accumulators and the Mixer State after one `foldHash` after another. -/
def foldHashRegs : List (Lane × Word) → Mixer × Lanes → Mixer × Lanes
  | [], x => x
  | (k, d) :: rest, x =>
    foldHashRegs rest ((hashBlock d 8 x.1).2, x.2.set k (x.2.get k ^^^ (hashBlock d 8 x.1).1))

theorem foldHashes_eq (kds : List (Lane × Word)) (s : State) :
    ∃ rs, foldHashes kds s = some { s with
      mixer := (foldHashRegs kds (s.mixer, s.h)).1, h := (foldHashRegs kds (s.mixer, s.h)).2, responses := rs } := by
  induction kds generalizing s with
  | nil => exact ⟨_, rfl⟩
  | cons kd kds ih =>
    obtain ⟨k, d⟩ := kd
    obtain ⟨rs, hfold⟩ := foldHash_eq k d s
    rw [foldHashes, hfold, Option.bind_some]
    exact ih _

/-- The eight sub-blocks to hash by hand, in the order of R144 and each with its accumulator of R145. -/
def blockFolds (b : Lanes) : List (Lane × Word) :=
  [(0, b.get 0), (1, b.get 1), (2, b.get 2), (3, b.get 3), (0, b.get 3), (1, b.get 2), (2, b.get 1), (3, b.get 0)]

theorem foldHashRegs_blockFolds (b h : Lanes) (m : Mixer) :
    foldHashRegs (blockFolds b) (m, h) = ((blockHashes b m).mixer, accumulate h (blockHashes b m)) := by
  simp only [blockFolds, foldHashRegs, blockHashes, accumulate, Lanes.get, Lanes.set, Config.subLen]

end Sys2Proof.Machine
end

section
/-! PROOFS. The statements of spec/42_digest_accumulator.md: the four commands from their words and as commands, and
`DIGEST` run on the core. -/

namespace Sys2Proof.Machine

/-- Settles O50: the words have the effects of their commands, which keep the registers at those of the document's
algorithm block by block; the four reads answer the accumulators. -/
theorem digestProtocolComputesTheDigest : Obligations.DigestProtocolComputesTheDigest := by
  intro msg s hs
  have hwf := digestCommands_wf msg
  obtain ⟨hm, hrest⟩ := Prod.mk.inj (digestRegisters_digestCommands msg s)
  obtain ⟨hh, hb⟩ := Prod.mk.inj hrest
  obtain ⟨hp, hq⟩ := Prod.mk.inj (hammingRegisters_runCommands (digestCommands_keep_operands msg) s)
  obtain ⟨rs, hrs, hcodes⟩ := runCommands_responses hwf s
  refine ⟨_, runDigest_eq msg hs, hm, hh, hb, hp, hq, runCommands_status hwf s, runCommands_pending hwf s, ?_⟩
  rw [hrs, List.drop_left]
  exact hcodes

/-- Settles O52: the text is the rendering of a digest computed without the core, and every block restores `S0`. -/
theorem digestIsIndependentOfPriorCommands : Obligations.DigestIsIndependentOfPriorCommands := by
  intro msg s s' hs hs'
  obtain ⟨hm, -⟩ := Prod.mk.inj (digestRegisters_digestCommands msg s)
  refine ⟨_, _, _, runDigest_eq msg hs, runDigest_eq msg hs', render_length _, mem_render _, ?_⟩
  rw [hm, digestOf_s0]
  rfl

/-- Settles O19: the operands are tested to be zero, and the command's effect sets the seeds and the zeros. -/
theorem dinitWordStartsADigestOrFaults : Obligations.DinitWordStartsADigestOrFaults := by
  intro s cw hs hop
  rw [step_of_opcode_test hop (by decide) (decodeOperands_dinit _ _ _) hs, commandEffect_dinit]
  rfl

/-- Settles O20: `len` and the lane are tested, and the test makes the count one that the command's effect keeps. -/
theorem ldbWordLoadsItsBytesOrFaults : Obligations.LdbWordLoadsItsBytesOrFaults := by
  intro s cw hs hop
  rw [step_of_lane_test hop (by decide) (decodeOperands_ldb _ _ _) hs]
  exact congrArg _ (dite_congr rfl
    (fun ⟨_, hn, _⟩ => commandEffect_ldb ((countOk_iff _).mpr hn) _ _ _) fun _ => rfl)

/-- Settles O21: the operands are tested to be zero, and the command's effect is the eight calls; their joined feeds
have 128 inputs. -/
theorem dblkWordProcessesTheBlockOrFaults : Obligations.DblkWordProcessesTheBlockOrFaults := by
  intro s cw hs hop
  refine ⟨?_, blockFeed_length s.b⟩
  rw [step_of_opcode_test hop (by decide) (decodeOperands_dblk _ _ _) hs, commandEffect_dblk]
  rfl

/-- Settles O22: `len` and the lane are tested, and the command's effect is the XOR. -/
theorem xaccWordXorsIntoOneAccumulatorOrFaults : Obligations.XaccWordXorsIntoOneAccumulatorOrFaults :=
  fun _ _ hs hop => step_of_lane_test hop (by decide) (decodeOperands_xacc _ _ _) hs

/-- Settles O29: `LDB` is the write of what `keep` keeps, lane by lane. -/
theorem ldbCompletesLaneByLane : Obligations.LdbCompletesLaneByLane := by
  refine ⟨fun k n d s hn => ⟨_, exec_ldb ((countOk_iff n).mpr hn) k d s, fun i hi => ?_, fun r hr => ?_, ?_, rfl, rfl⟩,
    fun k n d s hn => exec_of_not_wf (i := .ldb k n d) (decide_eq_false (Nat.not_le.mpr hn)) s⟩
  · rw [readReg_respond, readReg_writeReg_same _ _ rfl, byteOf_keep d hi]
  · rw [readReg_respond, readReg_writeReg_ne _ _ hr]
  · rw [respond_responses, writeReg_responses]
    rfl

/-- Settles O31: `XACC` is the write of an XOR, and the same XOR again cancels it. -/
theorem xaccCompletesAndUndoesItself : Obligations.XaccCompletesAndUndoesItself := by
  refine fun k d s => ⟨_, exec_xacc k d s, ?_, fun r hr => ?_, rfl, rfl, rfl, _, exec_xacc k d _, fun r => ?_⟩
  · rw [readReg_respond, readReg_writeReg_same _ _ rfl]
  · rw [readReg_respond, readReg_writeReg_ne _ _ hr]
  · rw [readReg_respond]
    by_cases hr : r = .h k
    · rw [hr, readReg_writeReg_same _ _ rfl, readReg_respond, readReg_writeReg_same _ _ rfl, BitVec.xor_assoc,
        BitVec.xor_self, BitVec.xor_zero]
    · rw [readReg_writeReg_ne _ _ hr, readReg_respond, readReg_writeReg_ne _ _ hr]

/-- Settles O37: each hand hash moves the Mixer State on and XORs one accumulator, as the block computation does. -/
theorem dblkIsEightHashbAndXacc : Obligations.DblkIsEightHashbAndXacc := by
  intro s t h
  obtain rfl := eq_commandEffect_of_exec h
  obtain ⟨rs, hfold⟩ := foldHashes_eq (blockFolds s.b) s
  refine ⟨_, hfold, fun r => ?_⟩
  rw [foldHashRegs_blockFolds, commandEffect_dblk, readReg_respond]
  cases r <;> rfl

/-- Settles O49: the four loads leave the padded block, whose lanes are message bytes. -/
theorem loadsLeaveThePaddedBlock : Obligations.LoadsLeaveThePaddedBlock := by
  intro msg i s hs
  refine ⟨_, _, exchange_eq_runCommands (loads_wf msg i) hs, fun k j hj => ?_⟩
  obtain ⟨rs, hloads⟩ := runCommands_loads msg i s
  rw [hloads, ← byteOf_paddedWord msg i k hj, ← paddedBlock_get]
  rfl

/-- Settles O53: a byte past the end of a message is 0, as an appended zero is; the string is evaluated. -/
theorem trailingZerosInTheLastBlockKeepTheDigest : Obligations.TrailingZerosInTheLastBlockKeepTheDigest := by
  refine ⟨by decide, fun s hs => ?_, fun msg n => digestOf_append_zeros,
    digestOf_append_zeros (msg := []) (n := 1) rfl, digestOf_append_zeros (msg := []) (n := 32) rfl⟩
  have htext : render (digestOf []).2 =
      "a582d1d4e8eaf5534ade9b326d081316f6c3ddf5579db2f8ebf216ca367be784".toList := by decide +kernel
  exact ⟨_, htext ▸ runDigest_eq [] hs⟩

/-- Settles O48: the count is the length divided by 32, rounded up, and at least 1. -/
theorem blockCountIsTheStatedOne : Obligations.BlockCountIsTheStatedOne := by
  refine ⟨fun len => ?_, rfl, rfl, rfl, rfl, rfl⟩
  rw [numBlocks_eq]
  omega

end Sys2Proof.Machine
end

section
/-! PROOFS. The bit counts of the Hamming Counter, lane by lane (43_hamming.md R171, R172). -/

namespace Sys2Proof

theorem decodeOperands_hamd (r : BitVec 5) (len : BitVec 4) (d : Word) :
    decodeOperands 0x40#8 r len d = if r = 0#5 ∧ len = 0#4 ∧ d = 0#64 then some .hamd else none := rfl

end Sys2Proof

namespace Sys2Proof.Machine

theorem popcount_xor_eq_zero_iff (a b : Word) : popcount (a ^^^ b) = 0 ↔ a = b := by
  rw [popcount_eq_zero, BitVec.xor_eq_zero_iff]

theorem popcount_xor_eq_full_iff (a b : Word) : popcount (a ^^^ b) = 64 ↔ a = ~~~b := by
  have hbit : ∀ i < 64, (a ^^^ b).getLsbD i = true ↔ a.getLsbD i = (~~~b).getLsbD i := fun i hi => by
    simp [hi, Bool.eq_not]
  rw [popcount_eq_full, BitVec.eq_of_getLsbD_eq_iff]
  exact forall₂_congr hbit

theorem Lanes.eq_iff_get_eq {p q : Lanes} : p = q ↔ ∀ k, p.get k = q.get k :=
  ⟨fun h _ => h ▸ rfl, Lanes.ext_get⟩

/-- The distance as one sum over the four positions. -/
theorem hammingDistance_eq_sum (p q : Lanes) :
    hammingDistance p q = ∑ k : Lane, popcount (p.get k ^^^ q.get k) :=
  (Fin.sum_univ_four fun k => popcount (p.get k ^^^ q.get k)).symm

theorem hammingDistance_eq_zero_iff (p q : Lanes) : hammingDistance p q = 0 ↔ p = q := by
  simp only [hammingDistance_eq_sum, Finset.sum_eq_zero_iff, Finset.mem_univ, true_imp_iff, popcount_xor_eq_zero_iff,
    Lanes.eq_iff_get_eq]

theorem hammingDistance_comm (p q : Lanes) : hammingDistance p q = hammingDistance q p := by
  simp only [hammingDistance_eq_sum, BitVec.xor_comm]

theorem hammingDistance_le (p q : Lanes) : hammingDistance p q ≤ 256 := by
  rw [hammingDistance_eq_sum]
  exact Finset.sum_le_card_nsmul Finset.univ _ 64 fun k _ => popcount_le _

/-- Four counts of at most 64 add up to 256 only when each is 64. -/
theorem hammingDistance_eq_full_iff (p q : Lanes) :
    hammingDistance p q = 256 ↔ ∀ k, p.get k = ~~~(q.get k) := by
  have hall := Finset.sum_eq_sum_iff_of_le (s := Finset.univ) (g := fun _ => 64)
    fun (k : Lane) _ => popcount_le (p.get k ^^^ q.get k)
  rw [hammingDistance_eq_sum]
  refine hall.trans ?_
  simp only [Finset.mem_univ, true_imp_iff, popcount_xor_eq_full_iff]

/-- The distance fits the value of a response word. -/
theorem toNat_ofNat_hammingDistance (p q : Lanes) :
    (BitVec.ofNat 64 (hammingDistance p q)).toNat = hammingDistance p q :=
  (BitVec.toNat_ofNat _ _).trans (Nat.mod_eq_of_lt ((hammingDistance_le p q).trans_lt (by decide)))

end Sys2Proof.Machine
end

section
/-! PROOFS. Reading a text of digits: which texts have digit values, the value at each place, and the words of groups of
sixteen digits (43_hamming.md R176, R177, R179, R181). -/

namespace Sys2Proof.Machine

/-! ### The digit values of a text -/

theorem hexValues_append {cs ds : List Char} {us vs : List Nat} (hc : hexValues cs = some us)
    (hd : hexValues ds = some vs) : hexValues (cs ++ ds) = some (us ++ vs) := by
  rw [hexValues_eq_some_iff] at hc hd ⊢
  rw [List.map_append, List.map_append, hc, hd]

theorem exists_hexValues_iff (cs : List Char) :
    (∃ vs, hexValues cs = some vs) ↔ ∀ c ∈ cs, c ∈ "0123456789abcdefABCDEF".toList := by
  have hrange : (∃ vs, hexValues cs = some vs) ↔ cs.map hexValue ∈ Set.range (List.map some) :=
    exists_congr fun vs => (hexValues_eq_some_iff cs vs).trans eq_comm
  rw [hrange, Set.range_list_map, Set.mem_ofPred_eq, List.forall_mem_map]
  refine forall₂_congr fun c _ => ?_
  rw [← hexValue_isSome_iff, Option.isSome_iff_exists, Set.mem_range]
  simp only [eq_comm]

theorem hexValues_map_toLower (cs : List Char) : hexValues (cs.map Char.toLower) = hexValues cs := by
  induction cs with
  | nil => rfl
  | cons c cs ih => simp only [List.map_cons, hexValues, hexValue_toLower, ih]

/-- The digit value at a place of the text is that of the character there. -/
theorem hexValue_getD {cs : List Char} {vs : List Nat} (h : hexValues cs = some vs) {i : Nat} (hi : i < cs.length)
    (c : Char) (v : Nat) : hexValue (cs.getD i c) = some (vs.getD i v) := by
  have hv : i < vs.length := (hexValues_length h).symm ▸ hi
  have hplace := congrArg (·[i]?) ((hexValues_eq_some_iff cs vs).1 h)
  simpa [hi, hv] using hplace

theorem hexValues_lt {cs : List Char} {vs : List Nat} (h : hexValues cs = some vs) : ∀ v ∈ vs, v < 16 := by
  intro v hv
  have hmem : some v ∈ cs.map hexValue := (hexValues_eq_some_iff cs vs).1 h ▸ List.mem_map_of_mem hv
  obtain ⟨c, -, hc⟩ := List.mem_map.1 hmem
  exact (hexValue_eq_some hc).1

/-! ### Groups of sixteen digits -/

theorem groupWord_eq (ds : List Nat) (g : Nat) :
    groupWord ds g = BitVec.ofNat 64 (ofHexDigits ((ds.drop (16 * g)).take 16)) := rfl

section
variable {ds : List Nat} (hd : ds.length = 16) (rest : List Nat)
include hd

theorem groupWord_append_zero : groupWord (ds ++ rest) 0 = BitVec.ofNat 64 (ofHexDigits ds) := by
  rw [groupWord_eq, Nat.mul_zero, List.drop_zero, List.take_left' hd]

theorem groupWord_append_succ (g : Nat) : groupWord (ds ++ rest) (g + 1) = groupWord rest g := by
  rw [groupWord_eq, groupWord_eq, Nat.mul_succ, Nat.add_comm, ← List.drop_drop, List.drop_left' hd]

end

/-- The word of a group of digits is the number they stand for: sixteen digits do not overflow it. -/
theorem toNat_groupWord {ds : List Nat} (hds : ∀ v ∈ ds, v < 16) {g : Nat} (hg : 16 * g + 16 ≤ ds.length) :
    (groupWord ds g).toNat = ((List.range 16).map fun i => ds.getD (16 * g + i) 0 * 16 ^ (15 - i)).sum := by
  have hlen : ((ds.drop (16 * g)).take 16).length = 16 := by
    rw [List.length_take, List.length_drop]
    omega
  have hlt : ofHexDigits ((ds.drop (16 * g)).take 16) < 16 ^ 16 := by
    have := ofHexDigits_lt fun v hv => hds v (List.drop_subset (16 * g) ds (List.take_subset 16 _ hv))
    rwa [hlen] at this
  have hmod : ofHexDigits ((ds.drop (16 * g)).take 16) % 2 ^ 64 = _ := Nat.mod_eq_of_lt hlt
  rw [groupWord_eq, BitVec.toNat_ofNat, hmod, ofHexDigits_eq_sum, hlen]
  refine congrArg List.sum (List.map_congr_left fun i hi => ?_)
  have hi' : i < 16 := List.mem_range.1 hi
  simp [List.getD_eq_getElem?_getD, hi']

/-- The sixteen digit values of a word, the most significant first. -/
def wordDigits (d : Word) : List Nat := (List.range 16).map fun i => d.toNat / 16 ^ (16 - 1 - i) % 16

@[simp] theorem wordDigits_length (d : Word) : (wordDigits d).length = 16 := by simp [wordDigits]

theorem ofHexDigits_wordDigits (d : Word) : BitVec.ofNat 64 (ofHexDigits (wordDigits d)) = d := by
  have hd : d.toNat % 16 ^ 16 = d.toNat := Nat.mod_eq_of_lt d.isLt
  rw [wordDigits, ofHexDigits_digits, hd, BitVec.ofNat_toNat, BitVec.setWidth_eq]

/-- Sixteen digits a word, the words are the groups. -/
theorem groupWord_flatMap_wordDigits (ws : List Word) (g : Nat) :
    groupWord (ws.flatMap wordDigits) g = ws.getD g 0#64 := by
  induction ws generalizing g with
  | nil => simp [groupWord_eq, ofHexDigits]
  | cons w ws ih =>
    rw [List.flatMap_cons]
    cases g with
    | zero => rw [groupWord_append_zero (wordDigits_length w), ofHexDigits_wordDigits, List.getD_cons_zero]
    | succ g => rw [groupWord_append_succ (wordDigits_length w), ih, List.getD_cons_succ]

theorem hexValues_flatMap_hex16 (ws : List Word) : hexValues (ws.flatMap hex16) = some (ws.flatMap wordDigits) := by
  induction ws with
  | nil => rfl
  | cons w ws ih => exact hexValues_append (hexValues_hex16 w) ih

theorem render_eq_flatMap (h : Lanes) : render h = [h.l3, h.l2, h.l1, h.l0].flatMap hex16 := by
  simp [render]

/-! ### `parse` -/

/-- `parse` reads the digit values of the text alone. -/
theorem parse_congr {text text' : List Char} (h : hexValues text = hexValues text') : parse text = parse text' := by
  rw [parse, h, parse]

theorem exists_parse_eq_ok_iff (text : List Char) :
    (∃ w, parse text = .ok w) ↔ text.length = 64 ∧ ∀ c ∈ text, c ∈ "0123456789abcdefABCDEF".toList := by
  simp only [parse_eq_ok_iff, ← exists_hexValues_iff]
  constructor
  · rintro ⟨w, ds, hds, hlen, -⟩
    exact ⟨(hexValues_length hds).symm.trans hlen, ds, hds⟩
  · rintro ⟨hlen, ds, hds⟩
    exact ⟨_, ds, hds, (hexValues_length hds).trans hlen, rfl⟩

theorem parse_eq_error_iff (text : List Char) :
    parse text = .error .malformedDigest ↔ ¬ ∃ w, parse text = .ok w := by
  cases h : parse text with
  | ok w => simp
  | error e => cases e; simp

/-- The words of a parsed text are its groups of digit values. -/
theorem groupWord_of_parse {text : List Char} {w : Lanes} (h : parse text = .ok w) :
    ∃ ds, hexValues text = some ds ∧ ds.length = 64 ∧ ∀ g : Lane, w.get g = groupWord ds g.val := by
  obtain ⟨ds, hds, hlen, rfl⟩ := parse_eq_ok_iff.1 h
  refine ⟨ds, hds, hlen, fun g => ?_⟩
  match g with
  | 0 | 1 | 2 | 3 => rfl

end Sys2Proof.Machine
end

section
/-! PROOFS. `HAMMING` run on the core: the eight loads leave the operands in `P` and `Q`, and `HAMD` answers their
distance (43_hamming.md R178, R180). -/

namespace Sys2Proof.Machine

theorem commandEffect_ldp (k : Lane) (d : Word) (s : State) :
    commandEffect (ldp k d) s = respond 0#64 { s with p := s.p.set k d } := rfl

theorem commandEffect_ldq (k : Lane) (d : Word) (s : State) :
    commandEffect (ldq k d) s = respond 0#64 { s with q := s.q.set k d } := rfl

/-- The eight loads of `HAMMING`, an operand word to `P` and one to `Q` at each position. -/
def operandCommands (wa wb : Lanes) : List Instr := lanes.flatMap fun g => [ldp g (wa.get g), ldq g (wb.get g)]

theorem hammingCommands_eq (wa wb : Lanes) : hammingCommands wa wb = operandCommands wa wb ++ [.hamd] := rfl

theorem hammingCommands_wf (wa wb : Lanes) : ∀ c ∈ hammingCommands wa wb, c.wf = true := by
  have hloads : ∀ c ∈ operandCommands wa wb, c.wf = true :=
    List.forall_mem_flatMap.2 fun g _ => List.forall_mem_cons.2 ⟨rfl, List.forall_mem_singleton.2 rfl⟩
  exact List.forall_mem_append.2 ⟨hloads, List.forall_mem_singleton.2 rfl⟩

/-- Whatever `P` and `Q` held, the loads overwrite them with the operands, and write no other register. -/
theorem runCommands_operandCommands (wa wb : Lanes) (s : State) :
    ∃ rs, runCommands (operandCommands wa wb) s = { s with p := wa, q := wb, responses := s.responses ++ rs } := by
  simp only [operandCommands, lanes, List.flatMap_cons, List.flatMap_nil, List.cons_append, List.nil_append,
    runCommands_cons, runCommands_nil, commandEffect_ldp, commandEffect_ldq, respond, emit, Lanes.set_each,
    List.append_assoc]
  exact ⟨_, rfl⟩

/-- The commands of `HAMMING` leave the operands in `P` and `Q` and answer their distance last. -/
theorem runCommands_hammingCommands (wa wb : Lanes) (s : State) :
    ∃ rs, runCommands (hammingCommands wa wb) s = { s with
      p := wa
      q := wb
      responses := s.responses ++ (rs ++ [packResponse codeOk (BitVec.ofNat 64 (hammingDistance wa wb))]) } := by
  obtain ⟨rs, hrs⟩ := runCommands_operandCommands wa wb s
  refine ⟨rs, ?_⟩
  rw [hammingCommands_eq, runCommands_append, hrs, ← List.append_assoc]
  rfl

theorem runHamming_of_parse {a b : List Char} {wa wb : Lanes} (ha : parse a = .ok wa) (hb : parse b = .ok wb)
    {s : State} (hs : s.inReset = false) :
    runHamming a b s = .ok (some (hammingDistance wa wb, runCommands (hammingCommands wa wb) s)) := by
  obtain ⟨rs, hrun⟩ := runCommands_hammingCommands wa wb s
  simp only [runHamming, ha, hb, exchange_eq_runCommands (hammingCommands_wf wa wb) hs, hrun, List.drop_left,
    List.getLast?_append, List.getLast?_singleton, Option.some_or, Option.map_some, responseValue_packResponse,
    toNat_ofNat_hammingDistance]

theorem runHamming_of_malformed {a b : List Char}
    (h : parse a = .error .malformedDigest ∨ parse b = .error .malformedDigest) (s : State) :
    runHamming a b s = .error .malformedDigest := by
  rcases h with h | h
  · simp only [runHamming, h]
  · cases ha : parse a <;> simp only [runHamming, h, ha]

end Sys2Proof.Machine
end

section
/-! PROOFS. The statements of spec/43_hamming.md: `HAMD` from its word, the laws of the distance, `parse`, and
`HAMMING` run on the core. -/

namespace Sys2Proof.Machine

/-- Settles O54: the digit values of the text are those of the four words, sixteen each, and sixteen give back
their word. -/
theorem parseOfRenderIsTheWordsReversed : Obligations.ParseOfRenderIsTheWordsReversed := by
  intro h
  rw [render_eq_flatMap]
  refine parse_eq_ok_iff.2 ⟨_, hexValues_flatMap_hex16 _, by simp, ?_⟩
  simp only [groupWord_flatMap_wordDigits]
  rfl

/-- Settles O23: the operands are tested to be zero, and the command's effect is the answer alone. -/
theorem hamdWordAnswersTheDistanceOrFaults : Obligations.HamdWordAnswersTheDistanceOrFaults := by
  intro s cw hs hop
  rw [step_of_opcode_test hop (by decide) (decodeOperands_hamd _ _ _) hs, commandEffect_hamd]
  rfl

/-- Settles O36: the distance is a sum over the positions of counts between 0 and 64. -/
theorem hammingDistanceObeysItsLaws : Obligations.HammingDistanceObeysItsLaws :=
  ⟨hammingDistance_eq_zero_iff, hammingDistance_comm, hammingDistance_le, hammingDistance_eq_full_iff,
    toNat_ofNat_hammingDistance⟩

/-- Settles O55: `parse` reads the text by its digit values, which upper and lower case share. -/
theorem parseAcceptsExactlySixtyFourHexDigits : Obligations.ParseAcceptsExactlySixtyFourHexDigits := by
  refine ⟨exists_parse_eq_ok_iff, parse_eq_error_iff, fun text w h g => ?_,
    fun text => parse_congr (hexValues_map_toLower text)⟩
  obtain ⟨ds, hds, hlen, hw⟩ := groupWord_of_parse h
  rw [hw, toNat_groupWord (hexValues_lt hds) (by omega)]
  refine congrArg List.sum (List.map_congr_left fun i hi => ?_)
  have htext : text.length = 64 := (hexValues_length hds).symm.trans hlen
  have hplace : 16 * g.val + i < text.length := by have := List.mem_range.1 hi; omega
  rw [(hexValue_eq_some (hexValue_getD hds hplace '0' 0)).2]

/-- Settles O56: the loads and `HAMD` have their effects in order, none of which writes a register of a digest. -/
theorem hammingProtocolAnswersTheDistance : Obligations.HammingProtocolAnswersTheDistance := by
  refine ⟨fun a b wa wb s hs ha hb => ⟨_, runHamming_of_parse ha hb hs, ?_⟩,
    fun a b s h => runHamming_of_malformed h s⟩
  obtain ⟨rs, hrun⟩ := runCommands_hammingCommands wa wb s
  rw [hrun]
  exact ⟨rfl, rfl, rfl, rfl⟩

end Sys2Proof.Machine
end

section
/-! PROOFS. The words of `RDR` and `WRR` at the decoder, and registers read and written one after another: what
`CTXSAVE` answers and what `CTXRESTORE` leaves (44_register_access.md R190 to R192). -/

namespace Sys2Proof

theorem decodeOperands_rdr_eq_bind (x : BitVec 5) (len : BitVec 4) (d : Word) :
    decodeOperands 0x01#8 x len d =
      (regOfIndex x).bind fun r => if len = 0#4 ∧ d = 0#64 then some (.rdr r) else none := by
  have hrow : decodeOperands 0x01#8 x len d =
      if len = 0#4 ∧ d = 0#64 then (regOfIndex x).map .rdr else none := rfl
  rw [hrow]
  cases regOfIndex x with
  | none => exact ite_self none
  | some r => rfl

theorem decodeOperands_wrr_eq_bind (x : BitVec 5) (len : BitVec 4) (d : Word) :
    decodeOperands 0x02#8 x len d =
      (regOfIndex x).bind fun r => if len = 0#4 ∧ r ≠ .status then some (.wrr r d) else none := by
  have hrow : decodeOperands 0x02#8 x len d =
      if len = 0#4 then ((regOfIndex x).filter Reg.writable).map (.wrr · d) else none := rfl
  rw [hrow]
  cases regOfIndex x with
  | none => exact ite_self none
  | some r =>
    by_cases hlen : len = 0#4
    · cases r <;> simp [hlen, Reg.writable, Option.filter]
    · simp [hlen]

end Sys2Proof

namespace Sys2Proof.Machine

/-- Where the `r` field names a register and the operands are put to one test, the word has the effect of its command on
that register when the must-be-zero fields are zero and the test holds, and otherwise takes `ILLEGAL_OPERAND`
(30_encoding.md R78, R79). -/
theorem step_of_register_test {cw : CommandWord} {op : BitVec 8} {P : Reg → Prop} [DecidablePred P] {i : Reg → Instr}
    (hop : opField cw = op) (ha : op ∈ assignedOpcodes)
    (ho : decodeOperands op (rField cw) (lenField cw) (dataField cw) =
      (regOfIndex (rField cw)).bind fun r => if P r then some (i r) else none)
    {s : State} (hr : s.inReset = false) :
    step { s with pending := .command cw :: s.pending } =
      .next ((regOfIndex (rField cw)).elim (raiseFault .illegalOperand s) fun r =>
        if zerosOk cw = true ∧ P r then commandEffect (i r) s else raiseFault .illegalOperand s) := by
  cases hreg : regOfIndex (rField cw) with
  | none =>
    rw [hreg] at ho
    subst hop
    exact step_of_decode_error (decode_eq_illegalOperand ha fun _ => ho) hr
  | some r =>
    rw [hreg] at ho
    exact step_of_opcode_test hop ha ho hr

/-! ### Registers read and written one after another -/

theorem runCommands_inReset (is : List Instr) (s : State) : (runCommands is s).inReset = s.inReset :=
  List.foldlRecOn (motive := fun t => t.inReset = s.inReset) _ _ rfl fun t ht i _ =>
    (commandEffect_ports i t).2.trans ht

/-- Reads answer the registers in order and change none. -/
theorem runCommands_rdr (regs : List Reg) (s : State) :
    runCommands (regs.map .rdr) s =
      { s with responses := s.responses ++ regs.map fun r => packResponse codeOk (readReg r s) } := by
  induction regs generalizing s with
  | nil => rw [List.map_nil, List.map_nil, runCommands_nil, List.append_nil]
  | cons r regs ih =>
    rw [List.map_cons, runCommands_cons, commandEffect_rdr, ih, respond_responses, List.append_assoc]
    simp only [readReg_respond]
    rfl

/-- Each register of a list of writes holds its value after them: a later write is of another register, or of the same
value. -/
theorem readReg_runCommands_wrr {regs : List Reg} (hw : ∀ r ∈ regs, r.writable = true) (value : Reg → Word) (u : State)
    {r : Reg} (hr : r ∈ regs) : readReg r (runCommands (regs.map fun r => .wrr r (value r)) u) = value r := by
  induction regs using List.reverseRecOn with
  | nil => cases hr
  | append_singleton regs r' ih =>
    obtain ⟨hinit, hlast⟩ := List.forall_mem_append.1 hw
    have hw' : r'.writable = true := hlast r' (List.mem_singleton_self r')
    rw [List.map_append, runCommands_append, List.map_singleton, runCommands_cons, runCommands_nil,
      commandEffect_wrr hw', readReg_respond]
    by_cases h : r = r'
    · rw [h, readReg_writeReg_same _ _ hw']
    · rw [readReg_writeReg_ne _ _ h]
      exact ih hinit ((List.mem_append.1 hr).resolve_right fun hm => h (List.mem_singleton.1 hm))

/-! ### The registers of a context -/

theorem contextRegs_writable : ∀ (midBlock : Bool), ∀ r ∈ contextRegs midBlock, r.writable = true := by decide

theorem s0_mem_contextRegs : ∀ midBlock : Bool, .s0 ∈ contextRegs midBlock := by decide

theorem s1_mem_contextRegs : ∀ midBlock : Bool, .s1 ∈ contextRegs midBlock := by decide

theorem h_mem_contextRegs : ∀ (midBlock : Bool) (k : Lane), .h k ∈ contextRegs midBlock := by decide

theorem b_mem_contextRegs : ∀ k : Lane, .b k ∈ contextRegs true := by decide

theorem exchange_contextSave (midBlock : Bool) {s : State} (hs : s.inReset = false) :
    exchange (contextSave midBlock) s =
      some ((contextRegs midBlock).map fun r => packResponse codeOk (readReg r s),
        runCommands (contextSave midBlock) s) := by
  have hw : ∀ i ∈ contextSave midBlock, i.wf = true := List.forall_mem_map.2 fun _ _ => rfl
  rw [exchange_eq_runCommands hw hs]
  simp only [contextSave, runCommands_rdr, List.drop_left]

/-- `CTXRESTORE` with the values of a `CTXSAVE` leaves each register of the context as the save found it, whatever the
state it runs in. -/
theorem exchange_contextRestore (midBlock : Bool) (s : State) {u : State} (hu : u.inReset = false) :
    ∃ rs v, exchange (contextRestore midBlock
        (((contextRegs midBlock).map fun r => packResponse codeOk (readReg r s)).map responseValue)) u = some (rs, v) ∧
      ∀ r ∈ contextRegs midBlock, readReg r v = readReg r s := by
  have hwrites : contextRestore midBlock
      (((contextRegs midBlock).map fun r => packResponse codeOk (readReg r s)).map responseValue) =
        (contextRegs midBlock).map fun r => .wrr r (readReg r s) := by
    simp only [contextRestore, List.map_map, Function.comp_def, responseValue_packResponse, List.zipWith_map_right,
      List.zipWith_self]
  have hw : ∀ i ∈ (contextRegs midBlock).map fun r => Instr.wrr r (readReg r s), i.wf = true :=
    List.forall_mem_map.2 (contextRegs_writable midBlock)
  rw [hwrites]
  exact ⟨_, _, exchange_eq_runCommands hw hu,
    fun _ hr => readReg_runCommands_wrr (contextRegs_writable midBlock) (readReg · s) u hr⟩

end Sys2Proof.Machine
end

section
/-! PROOFS. The statements of spec/44_register_access.md: `RDR` and `WRR` from their words, and a computation saved and
restored. -/

namespace Sys2Proof.Machine

/-- Settles O57: the save answers the registers of the context, the restore writes each of them with its answer, and a
register so written holds it, whatever the commands between have left. -/
theorem restoredContextIsTheSavedOne : Obligations.RestoredContextIsTheSavedOne := by
  intro midBlock between s hs hbetween
  have ht : (runCommands (contextSave midBlock) s).inReset = false := (runCommands_inReset _ s).trans hs
  have hu : (runCommands between (runCommands (contextSave midBlock) s)).inReset = false :=
    (runCommands_inReset _ _).trans ht
  obtain ⟨rs, v, hrestore, hread⟩ := exchange_contextRestore midBlock s hu
  refine ⟨_, _, _, _, rs, v, exchange_contextSave midBlock hs, exchange_eq_runCommands hbetween ht, hrestore, ?_,
    Lanes.ext_get fun k => hread _ (h_mem_contextRegs midBlock k), fun hmid => ?_⟩
  · exact congrArg₂ Mixer.mk (hread _ (s0_mem_contextRegs midBlock)) (hread _ (s1_mem_contextRegs midBlock))
  · subst hmid
    exact Lanes.ext_get fun k => hread _ (b_mem_contextRegs k)

/-- Settles O14: the index is looked up, `len` and the data are tested to be zero, and the command's effect is the
answer alone. -/
theorem rdrWordAnswersTheRegisterOrFaults : Obligations.RdrWordAnswersTheRegisterOrFaults := by
  intro s cw hs hop
  rw [step_of_register_test hop (by decide) (decodeOperands_rdr_eq_bind _ _ _) hs]
  cases regOfIndex (rField cw) with
  | none => rfl
  | some r => rfl

/-- Settles O15: the index is looked up, `len` is tested to be zero and the register not to be `STATUS`, and such a
register is one the command's effect writes. -/
theorem wrrWordWritesTheRegisterOrFaults : Obligations.WrrWordWritesTheRegisterOrFaults := by
  intro s cw hs hop
  rw [step_of_register_test hop (by decide) (decodeOperands_wrr_eq_bind _ _ _) hs]
  cases regOfIndex (rField cw) with
  | none => rfl
  | some r =>
    exact congrArg _ (ite_congr rfl
      (fun ⟨_, _, hr⟩ => commandEffect_wrr (Reg.writable_of_ne_status hr) _ s) fun _ => rfl)

end Sys2Proof.Machine
end

section
/-! PROOFS. What refused words leave of a run (60_exceptions.md R203, R205, R216): the sticky bits of the faults they
raise, and the registers other than `STATUS` as the legal words alone would leave them. -/

namespace Sys2Proof.Machine

/-! ### The sticky bits a run sets -/

/-- A fault's sticky bit, bit by bit (R201). -/
theorem getLsbD_stickyBit (f : CommandFault) (j : Nat) :
    (stickyBit f).getLsbD j = ((f = .illegalOpcode && j == 0) || (f = .illegalOperand && j == 1)) := by
  cases f with
  | illegalOpcode =>
    change (BitVec.twoPow 64 0).getLsbD j = _
    simp [BitVec.getLsbD_twoPow, beq_eq_decide, eq_comm]
  | illegalOperand =>
    change (BitVec.twoPow 64 1).getLsbD j = _
    simp [BitVec.getLsbD_twoPow, beq_eq_decide, eq_comm]

theorem stickyBit_ne_zero (f : CommandFault) : stickyBit f ≠ 0#64 := by cases f <;> decide

theorem legalWord_eq_true_iff (cw : CommandWord) : legalWord cw = true ↔ ∀ f, decode cw ≠ .error f := by
  unfold legalWord
  cases decode cw with
  | ok i => exact ⟨nofun, fun _ => rfl⟩
  | error f => exact ⟨nofun, fun h => absurd rfl (h f)⟩

theorem legalWord_eq_false_iff (cw : CommandWord) : legalWord cw = false ↔ ∃ f, decode cw = .error f := by
  rw [← Bool.not_eq_true, legalWord_eq_true_iff]
  simp

/-- A bit of `STATUS` after a command word was set before it, or is the sticky bit of the fault the word raises. -/
theorem getLsbD_status_wordEffect (cw : CommandWord) (s : State) (j : Nat) :
    (wordEffect cw s).status.getLsbD j = true ↔
      s.status.getLsbD j = true ∨ ∃ f, decode cw = .error f ∧ (stickyBit f).getLsbD j = true := by
  cases hd : decode cw with
  | ok i => simp [wordEffect_ok hd, commandEffect_status_of_wf (wf_of_decode hd)]
  | error f => simp [wordEffect_error hd]

/-- The same for a run over command words. -/
theorem getLsbD_status_foldl_wordEffect (ws : List CommandWord) (s : State) (j : Nat) :
    (ws.foldl (fun t cw => wordEffect cw t) s).status.getLsbD j = true ↔
      s.status.getLsbD j = true ∨ ∃ cw ∈ ws, ∃ f, decode cw = .error f ∧ (stickyBit f).getLsbD j = true := by
  induction ws generalizing s with
  | nil => simp
  | cons cw ws ih => rw [List.foldl_cons, ih, getLsbD_status_wordEffect, List.exists_mem_cons_iff, or_assoc]

/-! ### The registers other than `STATUS` -/

/-- The eighteen registers other than `STATUS`. -/
def registersButStatus (s : State) : (Mixer × Lanes × Lanes) × Lanes × Lanes := (digestRegisters s, hammingRegisters s)

theorem readReg_of_registersButStatus_eq {s t : State} (h : registersButStatus t = registersButStatus s) {r : Reg}
    (hr : r ≠ .status) : readReg r t = readReg r s := by
  simp only [registersButStatus, Prod.mk.injEq] at h
  obtain ⟨⟨hm, hh, hb⟩, hp, hq⟩ := h
  exact readReg_congr hr hm hh hb hp hq

/-- States that agree in these registers differ in `STATUS` and the ports only. -/
theorem eq_with_status_and_ports {s u : State} (h : registersButStatus s = registersButStatus u) :
    u = { s with status := u.status, inReset := u.inReset, pending := u.pending, responses := u.responses } := by
  cases s
  cases u
  simp only [registersButStatus, Prod.mk.injEq] at h
  obtain ⟨⟨rfl, rfl, rfl⟩, rfl, rfl⟩ := h
  rfl

/-- What a command leaves in these registers depends on them alone: it reads no port, and `STATUS` only to answer it
(10_state.md R20, R26). -/
theorem registersButStatus_commandEffect_congr (i : Instr) {s u : State}
    (h : registersButStatus s = registersButStatus u) :
    registersButStatus (commandEffect i s) = registersButStatus (commandEffect i u) := by
  obtain ⟨y, rs, hstatus, -⟩ := commandEffect_with_status i s u.status
  obtain ⟨w, -, hports⟩ := commandEffect_with_ports i { s with status := u.status }
  rw [eq_with_status_and_ports h, hports, hstatus]
  rfl

theorem registersButStatus_wordEffect_of_refused (cw : CommandWord) (s : State) (h : legalWord cw = false) :
    registersButStatus (wordEffect cw s) = registersButStatus s := by
  obtain ⟨f, hd⟩ := (legalWord_eq_false_iff cw).1 h
  rw [wordEffect_error hd]
  rfl

theorem registersButStatus_wordEffect_congr (cw : CommandWord) (s u : State)
    (h : registersButStatus s = registersButStatus u) :
    registersButStatus (wordEffect cw s) = registersButStatus (wordEffect cw u) := by
  cases hd : decode cw with
  | ok i =>
    rw [wordEffect_ok hd, wordEffect_ok hd]
    exact registersButStatus_commandEffect_congr i h
  | error f =>
    rw [wordEffect_error hd, wordEffect_error hd]
    exact h

end Sys2Proof.Machine
end

section
/-! PROOFS. The statements of spec/60_exceptions.md: what a fault changes, what `STATUS` tells at the end of a run, and
that refused words do not disturb one. -/

namespace Sys2Proof.Machine

/-- Settles O42: a bit of `STATUS` is set at the end exactly if some word raised the fault it is the sticky bit of, and
every fault has one. -/
theorem statusTellsWhichFaultsARunRaised : Obligations.StatusTellsWhichFaultsARunRaised := by
  intro ws s t hs h0 ht
  rw [run_presentWords _ _ hs] at ht
  cases ht
  have hbit := getLsbD_status_foldl_wordEffect ws s
  simp only [h0, BitVec.getLsbD_zero, Bool.false_eq_true, false_or] at hbit
  refine ⟨?_, ?_, ?_⟩
  · simp only [State.eop, hbit, getLsbD_stickyBit]
    simp
  · simp only [State.earg, hbit, getLsbD_stickyBit]
    simp
  · simp only [BitVec.zero_iff_eq_false, legalWord_eq_true_iff, ← Bool.not_eq_true, hbit]
    constructor
    · intro hnone cw hcw f hd
      refine stickyBit_ne_zero f (BitVec.zero_iff_eq_false.2 fun j => ?_)
      exact Bool.eq_false_iff.2 fun hj => hnone j ⟨cw, hcw, f, hd, hj⟩
    · rintro hlegal j ⟨cw, hcw, f, hd, -⟩
      exact hlegal cw hcw f hd

/-- Settles O43: a refused word keeps the registers other than `STATUS`, and what a legal word leaves there depends on
them alone. -/
theorem refusedWordsLeaveTheRunUndisturbed : Obligations.RefusedWordsLeaveTheRunUndisturbed :=
  fun _ _ _ _ hs ht hu _ hr => readReg_of_registersButStatus_eq
    (view_run_filter registersButStatus legalWord registersButStatus_wordEffect_of_refused
      (fun cw s u _ => registersButStatus_wordEffect_congr cw s u) hs ht hu) hr

/-- Settles O13: the step takes the fault, whose one write of a register is the OR of its sticky bit into `STATUS`. -/
theorem refusedWordTakesItsFaultAndNothingElse : Obligations.RefusedWordTakesItsFaultAndNothingElse := by
  intro s cw f hs hd
  refine ⟨raiseFault f s, step_of_decode_error hd hs, fun r hr => readReg_congr hr rfl rfl rfl rfl rfl,
    fun j _ => ?_, ?_, rfl, hs⟩
  · rw [raiseFault_status, BitVec.getLsbD_or, getLsbD_stickyBit, Bool.or_assoc]
  · rw [raiseFault_responses]
    cases f <;> rfl

end Sys2Proof.Machine
end

section
/-! PROOFS. What reset does to the step, what each command word leaves in the registers of a digest computation, and the
mixer work of `DIGEST` (70_reset_and_hazards.md R230, R233, R237). -/

namespace Sys2Proof.Machine

/-! ### The step over the host's next input -/

theorem step_input (x : HostInput) (s : State) : step { s with pending := x :: s.pending } = performInput x s := rfl

theorem performInput_command_of_inReset (cw : CommandWord) {s : State} (h : s.inReset = true) :
    performInput (.command cw) s = .refused .wordDuringReset := if_pos h

theorem performInput_releaseReset_of_inReset {s : State} (h : s.inReset = true) :
    performInput .releaseReset s = .next { State.reset with pending := s.pending, responses := s.responses } :=
  congrArg _ (releaseReset_of_inReset h)

/-! ### The registers of a digest computation -/

theorem digestRegisters_commandEffect_of_not_writes {i : Instr} (h : writesDigest i = false) (s : State) :
    digestRegisters (commandEffect i s) = digestRegisters s := by
  cases i with
  | rdr r => rfl
  | wrr r d =>
    cases r with
    | p k | q k | status => rfl
    | _ => cases h
  | hamd => rfl
  | _ => cases h

/-- What a legal command leaves in `S0`, `S1`, `H` and `B` depends on them alone: `P`, `Q` and `STATUS` are read only to
answer them (10_state.md R32, 43_hamming.md R180). -/
theorem digestRegisters_commandEffect_congr {i : Instr} (hw : i.wf = true) {s u : State}
    (h : digestRegisters s = digestRegisters u) :
    digestRegisters (commandEffect i s) = digestRegisters (commandEffect i u) := by
  cases s
  cases u
  simp only [Prod.mk.injEq] at h
  obtain ⟨rfl, rfl, rfl⟩ := h
  cases i with
  | wrr r d => cases r <;> rfl
  | hashb n d => rw [commandEffect_hashb hw, commandEffect_hashb hw]; rfl
  | ldb k n d => rw [commandEffect_ldb hw, commandEffect_ldb hw]; rfl
  | _ => rfl

theorem digestRegisters_wordEffect_of_not_writes (cw : CommandWord) (s : State) (h : wordWritesDigest cw = false) :
    digestRegisters (wordEffect cw s) = digestRegisters s := by
  cases hd : decode cw with
  | ok i =>
    simp only [wordWritesDigest, hd] at h
    rw [wordEffect_ok hd, digestRegisters_commandEffect_of_not_writes h]
  | error f => rw [wordEffect_error hd]; rfl

theorem digestRegisters_wordEffect_congr (cw : CommandWord) {s u : State} (h : digestRegisters s = digestRegisters u) :
    digestRegisters (wordEffect cw s) = digestRegisters (wordEffect cw u) := by
  cases hd : decode cw with
  | ok i =>
    rw [wordEffect_ok hd, wordEffect_ok hd]
    exact digestRegisters_commandEffect_congr (wf_of_decode hd) h
  | error f =>
    rw [wordEffect_error hd, wordEffect_error hd]
    exact h

/-! ### The mixer work of `DIGEST` -/

/-- How much mixer work a command does does not depend on the state it meets. -/
theorem mixSteps_eq_mixSteps (i : Instr) (s t : State) : mixSteps i s = mixSteps i t := by
  cases i with
  | dblk => exact (blockFeed_length s.b).trans (blockFeed_length t.b).symm
  | _ => rfl

/-- So the work of a command sequence can be counted in any one state. -/
theorem mapIdx_mixSteps (is : List Instr) (meets : Nat → State) (s : State) :
    is.mapIdx (fun j i => mixSteps i (meets j)) = is.map (mixSteps · s) :=
  List.ext_getElem (by simp) fun j _ _ => by simpa using mixSteps_eq_mixSteps _ (meets j) s

/-- A block's mixer work is that of its `DBLK`: the loads do none. -/
theorem sum_mixSteps_blockCommands (msg : List Byte) (s : State) (i : Nat) :
    ((blockCommands msg i).map (mixSteps · s)).sum = 128 := by
  simp [blockCommands, lanes, loadCommand, mixSteps, mixFeed, blockFeed_length]

theorem sum_mixSteps_blocks (msg : List Byte) (s : State) (n : Nat) :
    (((List.range n).flatMap (blockCommands msg)).map (mixSteps · s)).sum = 128 * n := by
  induction n with
  | zero => rfl
  | succ n ih =>
    rw [List.range_succ, List.flatMap_append, List.flatMap_singleton, List.map_append, List.sum_append, ih,
      sum_mixSteps_blockCommands, Nat.mul_succ]

/-- `DINIT` and the four reads do no mixer work. -/
theorem sum_mixSteps_digestCommands (msg : List Byte) (s : State) :
    ((digestCommands msg).map (mixSteps · s)).sum = 128 * numBlocks msg.length := by
  have hreads : ((lanes.map rdh).map (mixSteps · s)).sum = 0 := rfl
  have hinit : mixSteps .dinit s = 0 := rfl
  rw [digestCommands, List.map_cons, List.sum_cons, List.map_append, List.sum_append, sum_mixSteps_blocks, hreads,
    hinit, Nat.zero_add, Nat.add_zero]

end Sys2Proof.Machine
end

section
/-! PROOFS. The statements of spec/70_reset_and_hazards.md: the reset input, what can disturb a digest computation, and
the mixer work of one. -/

namespace Sys2Proof.Machine

/-- Settles O44: a word that does not write the registers of a digest keeps them, and what the others leave there
depends on them alone. -/
theorem onlyWritesToDigestRegistersDisturbADigest : Obligations.OnlyWritesToDigestRegistersDisturbADigest :=
  fun _ _ _ _ => view_run_filter digestRegisters wordWritesDigest digestRegisters_wordEffect_of_not_writes
    fun cw _ _ _ => digestRegisters_wordEffect_congr cw

/-- Settles O51: the work can be counted in one state, where each `DBLK` does 128 steps and nothing else does any. -/
theorem digestWorkIsTheStatedCount : Obligations.DigestWorkIsTheStatedCount := by
  intro msg meets
  rw [mapIdx_mixSteps _ meets State.reset, sum_mixSteps_digestCommands]

/-- Settles O2, input by input: an assert leaves reset asserted, so the release after it gives the reset values. -/
theorem releasedResetLeavesTheResetStateFromAnyState :
    Obligations.ReleasedResetLeavesTheResetStateFromAnyState := by
  refine ⟨fun s => ⟨assertReset s, rfl, rfl, rfl, rfl⟩, fun s cw t hr => ?_, fun s hr => ?_, fun s => ?_⟩
  · rw [step_input, performInput_command_of_inReset cw hr]
    exact nofun
  · rw [step_input, performInput_releaseReset_of_inReset hr]
  · calc runSteps 2 { s with pending := .assertReset :: .releaseReset :: s.pending }
        = runSteps 1 { assertReset s with pending := .releaseReset :: (assertReset s).pending } := rfl
      _ = .next { State.reset with pending := s.pending, responses := s.responses } := by
        rw [runSteps, step_input, performInput_releaseReset_of_inReset rfl]
        rfl

end Sys2Proof.Machine
end
